-- ==== Sys2Proof/Word.lean ====
section
/-! DEFINITION. The machine's word types (00_scope.md R8; 10_state.md R20, R23). -/

namespace Sys2Proof

/-- 8 bits, bit 7 most significant (R8): a register's content, a stack byte, an LDI immediate. -/
abbrev Byte := BitVec 8

/-- 16 bits, bit 15 most significant (R8): an instruction word, a program-space index, a data address. -/
abbrev Word := BitVec 16

/-- The index of a general register, `0 .. 31` (R20). It is only ever an index, so it is no bit vector. -/
abbrev Reg := Fin 32

/-- A label identity: the 8-bit `id` field of a `LABEL` word (30_encoding.md R94). -/
abbrev LabelId := BitVec 8

end Sys2Proof
end

