-- ==== Sys2Proof/Syntax.lean ====
section
/-! DEFINITION. The instructions in their abstract form: a mnemonic with numeric operands
(40_instruction_contract.md R120). One constructor per row of spec/opcode_table.json. -/

namespace Sys2Proof

/-- An instruction in its abstract form. "The operands are integers" (R120): one may be out of its range, and then
the instruction is not well formed (WellFormed.lean) and cannot be built (R121). -/
inductive Instr where
  /-- `LABEL id`, the label marker (43_label.md R180). -/
  | label (id : Int)
  /-- `CPC d, r`, compare (41_alu_cpc_sbc.md R150). -/
  | cpc (d r : Int)
  /-- `SBC d, r`, subtract with carry (41_alu_cpc_sbc.md R151). -/
  | sbc (d r : Int)
  /-- `LDI d, k`, load immediate (42_ldi.md R170). -/
  | ldi (d k : Int)
deriving DecidableEq, Repr

end Sys2Proof
end

