-- ==== Sys2Proof/WellFormed.lean ====
section
/-! DEFINITION. Which abstract instructions are well formed (40_instruction_contract.md R120). -/

namespace Sys2Proof

/-- "general-purpose register operands must lie in [0,31]" (R120). -/
def isGeneralReg (n : Int) : Bool := decide (0 ≤ n) && decide (n ≤ 31)

/-- "immediate-load operands are restricted to a sub-range of registers [16,31]" (R120). -/
def isUpperReg (n : Int) : Bool := decide (16 ≤ n) && decide (n ≤ 31)

/-- "immediate values must lie in [0,255]" (R120). -/
def isImmediate (n : Int) : Bool := decide (0 ≤ n) && decide (n ≤ 255)

/-- `0 <= id <= 255` (R120, D6). -/
def isLabelId (n : Int) : Bool := decide (0 ≤ n) && decide (n ≤ 255)

/-- The table of R120, row by row. -/
def Instr.wellFormed : Instr → Bool
  | .label id => isLabelId id
  | .cpc d r => isGeneralReg d && isGeneralReg r
  | .sbc d r => isGeneralReg d && isGeneralReg r
  | .ldi d k => isUpperReg d && isImmediate k

end Sys2Proof
end

