-- ==== Sys2Proof/Decode.lean ====
section
/-! DEFINITION. The decoder, the opcode table and the encoder (30_encoding.md R90 to R102). One instruction is one
16-bit word (R90); program space holds words, so decoding meets no byte order (20_memory.md R67). -/

namespace Sys2Proof

/-- The `len` bits of `w` from bit `lo` upwards: the spec's `w[lo+len-1 : lo]` (00_scope.md R8). -/
def bitsAt (w : Word) (lo len : Nat) : BitVec len := w.extractLsb' lo len

/-- `d` of format `RR`: `w[8] ++ w[7:4]` (R92). -/
def rrDest (w : Word) : BitVec 5 := bitsAt w 8 1 ++ bitsAt w 4 4

/-- `r` of format `RR`: `w[9] ++ w[3:0]` (R92). -/
def rrSource (w : Word) : BitVec 5 := bitsAt w 9 1 ++ bitsAt w 0 4

/-- `d` of format `RI`: `16 + u(w[7:4])` (R93). -/
def riDest (w : Word) : Nat := 16 + (bitsAt w 4 4).toNat

/-- `k` of format `RI`: `w[11:8] ++ w[3:0]` (R93). -/
def riImmediate (w : Word) : Byte := bitsAt w 8 4 ++ bitsAt w 0 4

/-- `id` of format `L`: `w[7:0]` (R94). -/
def labelField (w : Word) : LabelId := bitsAt w 0 8

/-- What the decoder answers: an instruction, or that the word is `reserved` (R99, R100). -/
inductive Decoded where
  | instr (i : Instr)
  /-- An illegal word: no in-scope instruction has this encoding (R100). -/
  | reserved
deriving DecidableEq, Repr

/-- The decoding algorithm of R99, total on all 2^16 words. -/
def decode (w : Word) : Decoded :=
  if bitsAt w 8 8 = 0x00#8 then .instr (.label (labelField w).toNat)
  else if bitsAt w 10 6 = 0b000001#6 then .instr (.cpc (rrDest w).toNat (rrSource w).toNat)
  else if bitsAt w 10 6 = 0b000010#6 then .instr (.sbc (rrDest w).toNat (rrSource w).toNat)
  else if bitsAt w 12 4 = 0b1110#4 then .instr (.ldi (riDest w) (riImmediate w).toNat)
  else .reserved

/-- One row of the opcode map: a word `w` belongs to it when `w &&& mask = pattern`. -/
structure OpcodeRow where
  mnemonic : String
  mask : Word
  pattern : Word
deriving DecidableEq, Repr

/-- Does the row's pattern fit the word? -/
def OpcodeRow.fits (row : OpcodeRow) (w : Word) : Bool := w &&& row.mask == row.pattern

/-- `LABEL`: pattern `0000 0000 iiii iiii` (R98). -/
def rowLabel : OpcodeRow := ⟨"LABEL", 0xFF00#16, 0x0000#16⟩

/-- `CPC`: pattern `0000 01rd dddd rrrr` (R95). -/
def rowCpc : OpcodeRow := ⟨"CPC", 0xFC00#16, 0x0400#16⟩

/-- `SBC`: pattern `0000 10rd dddd rrrr` (R96). -/
def rowSbc : OpcodeRow := ⟨"SBC", 0xFC00#16, 0x0800#16⟩

/-- `LDI`: pattern `1110 KKKK dddd KKKK` (R97). -/
def rowLdi : OpcodeRow := ⟨"LDI", 0xF000#16, 0xE000#16⟩

/-- The opcode map of 30_encoding.md section 3. -/
def opcodeTable : List OpcodeRow := [rowLabel, rowCpc, rowSbc, rowLdi]

/-- The row of an instruction's mnemonic. -/
def Instr.row : Instr → OpcodeRow
  | .label _ => rowLabel
  | .cpc _ _ => rowCpc
  | .sbc _ _ => rowSbc
  | .ldi _ _ => rowLdi

/-- `v` as a word whose bits start at bit `at`. -/
def placed {n : Nat} (v : BitVec n) (lsb : Nat) : Word := v.setWidth 16 <<< lsb

/-- The operand bits of format `RR`: `(r[4] << 9) | (d[4] << 8) | (d[3:0] << 4) | r[3:0]` (R99). -/
def rrOperands (d r : BitVec 5) : Word :=
  placed (r.extractLsb' 4 1) 9 ||| placed (d.extractLsb' 4 1) 8 |||
    placed (d.extractLsb' 0 4) 4 ||| placed (r.extractLsb' 0 4) 0

/-- The operand bits of format `RI`: `(k[7:4] << 8) | ((d - 16) << 4) | k[3:0]`, given `dd = d - 16` (R99). -/
def riOperands (dd : BitVec 4) (k : Byte) : Word :=
  placed (k.extractLsb' 4 4) 8 ||| placed dd 4 ||| placed (k.extractLsb' 0 4) 0

/-- The word of a well-formed instruction (R99). Of an ill-formed one it means nothing: such an instruction does not
exist (40_instruction_contract.md R121), and `Machine.construct` refuses it. -/
def encode : Instr → Word
  | .label id => placed (BitVec.ofInt 8 id) 0
  | .cpc d r => 0x0400#16 ||| rrOperands (BitVec.ofInt 5 d) (BitVec.ofInt 5 r)
  | .sbc d r => 0x0800#16 ||| rrOperands (BitVec.ofInt 5 d) (BitVec.ofInt 5 r)
  | .ldi d k => 0xE000#16 ||| riOperands (BitVec.ofInt 4 (d - 16)) (BitVec.ofInt 8 k)

/-- The instruction the decoder gave, if it gave one. -/
def Decoded.instr? : Decoded → Option Instr
  | .instr i => some i
  | .reserved => none

/-- The word whose `nbits` low bits are those of `w` and whose other bits are 0. Every instruction is one 16-bit word
(R90), so that word is the whole instruction. -/
def tableWord (nbits w : Nat) : Word := BitVec.ofNat 16 (w % 2 ^ nbits)

/-- The instruction the decoder reads from a word numbered as spec/opcode_table.json numbers its bits. -/
def decodeTableWord (nbits w : Nat) : Option Instr := (decode (tableWord nbits w)).instr?

/-- "A program image is valid when decode(prog[i]) is not reserved for every 0 <= i < N"
(70_reset_and_hazards.md R253); a loader rejects an image that is not (30_encoding.md R101). -/
def validImage (prog : List Word) : Bool := prog.all fun w => (decode w).instr?.isSome

end Sys2Proof
end

