-- ==== Sys2Proof/Config.lean ====
section
/-! DEFINITION. The parameters of the core (00_scope.md R7): the fixed ones, and the ones a run takes at reset. -/

namespace Sys2Proof

/-- The two instances of the magnitude function of the carry rule (40_instruction_contract.md R137).
What each one computes is `Machine.magnitude` in Machine/Flags.lean. -/
inductive Mag where
  /-- `MAG(v) = abs(s8(v))`, the instance this hardware takes (D2). -/
  | signed8
  /-- `MAG(v) = u(v)`, the defined alternative. -/
  | unsigned8
deriving DecidableEq, Repr

/-- `SENTINEL` (R7): the "returned from entry function" value of the PC. -/
def Config.sentinel : Word := 0xFFFF#16

/-- The largest program length (R7, 20_memory.md R61): index `0xFFFF` never holds an instruction. -/
def Config.maxProgramLength : Nat := 0xFFFF

/-- The parameters of one run, which reset latches (70_reset_and_hazards.md R250) and nothing changes afterwards
(10_state.md R34, 20_memory.md R61). The spec counts them as parameters of the step relation; the host's step has
no argument for them, so State carries them (log 1). -/
structure RunConfig where
  /-- Program space: `prog[i]` is the word at index `i`, and `N` is the list's length (R61). -/
  prog : List Word
  /-- `BATCH`: true in batch mode, false in interactive mode (R34). -/
  batch : Bool
  /-- `MAX_JUMPS`, the loop guard's configured maximum (R34). -/
  maxJumps : Nat
  /-- `MAG`, carried as a field so that a claim can say which instance it assumes (R137). -/
  mag : Mag
  /-- `ENTRY`, the reset value of the PC (R7). -/
  entry : Word
  /-- `SP_RESET`, the reset value of the stack pointer (10_state.md R32). -/
  spReset : Word
  /-- `STACK_IMAGE`, the stack's contents at reset, as cells; an address not listed holds `0x00` (20_memory.md R62). -/
  stackImage : List Host.Cell
deriving DecidableEq, Repr

/-- The parameters `State.reset` takes. `mag`, `entry` and `stackImage` are the spec's values or defaults (R7);
no program, interactive mode, `MAX_JUMPS = 0` and `SP_RESET = 0` are DESIGN CHOICES where the spec leaves the
parameter open (log 2). -/
def RunConfig.default : RunConfig where
  prog := []
  batch := false
  maxJumps := 0
  mag := .signed8
  entry := 0#16
  spReset := 0#16
  stackImage := []

end Sys2Proof
end

