-- ==== Sys2Proof/Machine/State.lean ====
section
/-! DEFINITION. The state of the core (10_state.md), the reasons a step can stop (60_exceptions.md), and reset
(10_state.md R40, 70_reset_and_hazards.md R250). -/

namespace Sys2Proof.Machine

/-- The status register: eight independent flags, each one bit of storage of its own (R26). -/
structure Flags where
  /-- Carry -/
  c : Bool
  /-- Zero -/
  z : Bool
  /-- Negative -/
  n : Bool
  /-- Overflow -/
  v : Bool
  /-- Sign, a stored bit (R28) -/
  s : Bool
  /-- Half-carry -/
  h : Bool
  /-- Transfer / bit-copy -/
  t : Bool
  /-- Interrupt-enable, inert (60_exceptions.md R226) -/
  i : Bool
deriving DecidableEq, Repr

/-- All eight flags 0, the reset value (R29). -/
def Flags.clear : Flags := ⟨false, false, false, false, false, false, false, false⟩

/-- The state of the core. -/
structure State where
  /-- `x[0]` to `x[31]` (R20). -/
  regs : Vector Byte 32
  /-- The program counter: the index of the instruction being executed (R23). -/
  pc : Word
  /-- The status register `F` (R26). -/
  flags : Flags
  /-- The stack pointer (R31). -/
  sp : Word
  /-- The stack space `STACK`: cells by address, an address not listed holds `0x00` (20_memory.md R62). -/
  stack : List Host.Cell
  /-- The heap space: cells by address, an address not listed has no value (20_memory.md R63). No step of this core
  reaches it (log 3). -/
  heap : List Host.Cell
  /-- The termination flag: true is the state Finished (R33). -/
  finished : Bool
  /-- The loop-guard counters, by label id; an id not listed is absent (R35). -/
  guard : List (Nat × Nat)
  /-- The run's parameters, latched by reset and constant after it (R34, R61; log 1). -/
  cfg : RunConfig
deriving DecidableEq, Repr

/-- Why a step stops with an error. The spec hands the error to the host and counts the run as aborted: "A model
should give such a run the outcome fault" (60_exceptions.md R224). -/
inductive Fault where
  /-- Malformed-Instruction, raised by the decode stage on a reserved word; it records the PC of the word and the word
  (R203, R220 b, R223). Nothing is committed. Safe: the machine stops where no effect exists. -/
  | malformedInstruction (pc : Word) (word : Word)
  /-- Malformed-Instruction at the assembly level: an operand of the abstract instruction is out of its range, so the
  instruction cannot be built (R102, R121, R220 a). Raised by a meaning given such an instruction; the decoder never
  produces one, so no step raises it. Safe. -/
  | malformedOperands (i : Instr)
  /-- Runtime-Error, raised by the loop guard when a label's counter passes `MAX_JUMPS`; it records the label's id
  (R204, R221, R223). Nothing is committed. Safe. -/
  | runtimeError (id : LabelId)
deriving DecidableEq, Repr

/-- Why the model gives an instruction no meaning. -/
inductive Refusal where
  /-- The instruction has no meaning in the model yet. No arm of exec answers it: all four instructions are modelled.
  Safe. -/
  | notModelled (mnemonic : String)
deriving DecidableEq, Repr

/-- The state right after the `reset` event with the run's parameters `p`: the table of R40. The heap, which R40 does
not list because it is outside the core, starts with nothing allocated (log 3). -/
def State.resetWith (p : RunConfig) : State where
  regs := Vector.replicate 32 0x00#8
  pc := p.entry
  flags := Flags.clear
  sp := p.spReset
  stack := p.stackImage
  heap := []
  finished := false
  guard := []
  cfg := p

/-- The machine right after reset, with the parameters of `RunConfig.default` (log 2). -/
def State.reset : State := State.resetWith RunConfig.default

end Sys2Proof.Machine
end

