-- ==== Sys2Proof/Machine/Flags.lean ====
section
/-! DEFINITION. The ALU: an 8-bit subtraction with an optional borrow input, and its flags
(40_instruction_contract.md R128 to R137). The flag rules are the source's own and are not to be corrected to those of
an AVR device (00_scope.md R3). -/

namespace Sys2Proof.Machine

/-- `s8(v)`, the two's-complement value (00_scope.md R9). -/
def s8 (v : Byte) : Int := v.toInt

/-- `trunc8(z)`, the 8-bit vector whose unsigned value is `z mod 256` (00_scope.md R9). -/
def trunc8 (z : Int) : Byte := BitVec.ofInt 8 z

/-- The magnitude function `MAG` (R137). -/
def magnitude (mag : Mag) (v : Byte) : Nat :=
  match mag with
  | .signed8 => (s8 v).natAbs
  | .unsigned8 => v.toNat

/-- The difference `z = u(a) - u(b) - cin` as a mathematical integer (R128). -/
def difference (a b : Byte) (cin : Bool) : Int := (a.toNat : Int) - (b.toNat : Int) - (cin.toNat : Int)

/-- `C' = 1` when `MAG(b) > MAG(a)`; it looks neither at the borrow input nor at the result (R130). -/
def carryFlag (mag : Mag) (a b : Byte) : Bool := decide (magnitude mag b > magnitude mag a)

/-- `Z' = 1` when `result = 0x00` (R131). -/
def zeroFlag (result : Byte) : Bool := result == 0x00#8

/-- `N' = result[7]` (R132). -/
def negativeFlag (result : Byte) : Bool := result.getLsbD 7

/-- `V'`, the two's-complement overflow (R133). -/
def overflowFlag (a b result : Byte) : Bool :=
  (a.getLsbD 7 && !b.getLsbD 7 && !result.getLsbD 7) || (!a.getLsbD 7 && b.getLsbD 7 && result.getLsbD 7)

/-- `S' = N' xor V'`, from the new `N'` and `V'` (R134). -/
def signFlag (n v : Bool) : Bool := n ^^ v

/-- The ALU as one function, `SUBFLAGS` (R136): the 8-bit result, and the snapshot's flags with C, Z, N, V, S replaced
and H, T, I kept (R135). -/
def subFlags (mag : Mag) (a b : Byte) (cin : Bool) (f : Flags) : Byte × Flags :=
  let result := trunc8 (difference a b cin)
  let n := negativeFlag result
  let v := overflowFlag a b result
  (result, { f with c := carryFlag mag a b, z := zeroFlag result, n := n, v := v, s := signFlag n v })

/-- The packed form the host may observe: bit 0 C, 1 Z, 2 N, 3 V, 4 S, 5 H, 6 T, 7 I (10_state.md R30). -/
def packFlags (f : Flags) : Byte :=
  BitVec.ofBool f.i ++ BitVec.ofBool f.t ++ BitVec.ofBool f.h ++ BitVec.ofBool f.s ++
    BitVec.ofBool f.v ++ BitVec.ofBool f.n ++ BitVec.ofBool f.z ++ BitVec.ofBool f.c

end Sys2Proof.Machine
end

