-- ==== Sys2Proof/Machine/Descriptor.lean ====
section
/-! DEFINITION. The update descriptor: the interface from the execute stage to the commit stage
(40_instruction_contract.md R124 to R127). -/

namespace Sys2Proof.Machine

/-- An update descriptor `UD` (R124). An omitted field is absent: its valid bit is the `Option`'s constructor. -/
structure Descriptor where
  /-- The register writes: a partial map from register index to value, so that no register is named twice (R125). -/
  regs : Vector (Option Byte) 32
  /-- The single memory write, to the stack space. -/
  mem : Option (Word × Byte)
  /-- The status-register replacement: a full set of eight flags. -/
  flags : Option Flags
  /-- The stack-pointer replacement. -/
  sp : Option Word
  /-- The long memory write, 16 bits as two bytes. -/
  long : Option (Word × Word)
  /-- The mandatory next PC. -/
  pc : Word
deriving DecidableEq, Repr

/-- The outcome of the execute stage: one descriptor or a failure (R122). -/
abbrev Execution := Except Fault Descriptor

/-- The empty register-write set. -/
def noRegWrites : Vector (Option Byte) 32 := Vector.replicate 32 none

/-- The register-write set with the one entry `d -> v`. -/
def oneRegWrite (d : Reg) (v : Byte) : Vector (Option Byte) 32 := noRegWrites.set d (some v)

/-- `UD{ regs = {}, pc = t }`: every optional field absent (R180). -/
def onlyPc (t : Word) : Descriptor where
  regs := noRegWrites
  mem := none
  flags := none
  sp := none
  long := none
  pc := t

end Sys2Proof.Machine
end

