-- ==== Sys2Proof/Machine/Operands.lean ====
section
/-! DEFINITION. The operand forms: a numeric operand is checked against the architecture's constraints and turned into
what the hardware holds (40_instruction_contract.md R120, R121; 30_encoding.md R92 to R94). -/

namespace Sys2Proof.Machine

/-- A general register operand, in `[0,31]` (R120). -/
def generalReg? (n : Int) : Option Reg :=
  if h : 0 ≤ n ∧ n ≤ 31 then some ⟨n.toNat, by omega⟩ else none

/-- The register operand of a load immediate, in `[16,31]` (R120). -/
def upperReg? (n : Int) : Option Reg :=
  if h : 16 ≤ n ∧ n ≤ 31 then some ⟨n.toNat, by omega⟩ else none

/-- An immediate operand, in `[0,255]` (R120). -/
def immediate? (n : Int) : Option Byte :=
  if 0 ≤ n ∧ n ≤ 255 then some (BitVec.ofInt 8 n) else none

/-- A label identity, in `[0,255]` (R120). -/
def labelId? (n : Int) : Option LabelId :=
  if 0 ≤ n ∧ n ≤ 255 then some (BitVec.ofInt 8 n) else none

/-- The failure of an instruction whose operands violate the constraints: it is not built (R121). -/
def illFormed (i : Instr) : Execution := .error (.malformedOperands i)

/-- Building an instruction from numeric operands: "every instruction validates its operands against the architecture's
constraints and fails immediately (construction fails, no instance is produced) if violated" (R121). -/
def construct (i : Instr) : Except Fault Instr :=
  if i.wellFormed then .ok i else .error (.malformedOperands i)

end Sys2Proof.Machine
end

