-- ==== Sys2Proof/Machine/Sparse.lean ====
section
/-! DEFINITION. Sparse maps from natural-number keys to values: the source's "sparse mappings" (20_memory.md R60),
held as lists of pairs in one canonical form. They carry the stack space, the heap space and the loop-guard counters.
The canonical form of the stack's memory and of the run's parameters is defined here as well. -/

namespace Sys2Proof.Machine

variable {α : Type}

/-- The value at key `k`, if the map lists one. -/
def lookup (k : Nat) : List (Nat × α) → Option α
  | [] => none
  | (a, v) :: m => if k = a then some v else lookup k m

/-- The map with value `v` at key `k`, the keys kept rising. -/
def put (k : Nat) (v : α) : List (Nat × α) → List (Nat × α)
  | [] => [(k, v)]
  | (a, w) :: m =>
    if k < a then (k, v) :: (a, w) :: m
    else if k = a then (k, v) :: m
    else (a, w) :: put k v m

/-- The map with nothing listed at key `k`. -/
def drop (k : Nat) : List (Nat × α) → List (Nat × α)
  | [] => []
  | (a, w) :: m => if k = a then drop k m else (a, w) :: drop k m

/-- The keys are strictly rising. -/
def rising : List (Nat × α) → Bool
  | [] => true
  | [_] => true
  | (a, _) :: (b, w) :: m => decide (a < b) && rising ((b, w) :: m)

/-- Byte memory as a list of cells. -/
abbrev Memory := List Host.Cell

/-- The byte at a stack address: an address not listed reads as `0x00` (20_memory.md R62). -/
def readByte (m : Memory) (a : Word) : Byte := (lookup a.toNat m).getD 0x00#8

/-- The memory with byte `v` at address `a`. Writing what an unlisted address reads as removes the entry, so that equal
memories are equal lists. -/
def writeByte (m : Memory) (a : Word) (v : Byte) : Memory :=
  if v = 0x00#8 then drop a.toNat m else put a.toNat v m

/-- The canonical form: addresses strictly rising and below 2^16, no entry equal to what an unlisted address reads as. -/
def Memory.wf (m : Memory) : Bool :=
  rising m && m.all fun cell => decide (cell.1 < 2 ^ 16) && decide (cell.2 ≠ 0x00#8)

/-- The canonical form of the heap, where an unlisted address has no value and a listed byte may be zero
(20_memory.md R63). -/
def heapWf (m : Memory) : Bool := rising m && m.all fun cell => decide (cell.1 < 2 ^ 16)

/-- The canonical form of the loop-guard counters: ids strictly rising, each an 8-bit id (10_state.md R35). -/
def guardWf (g : List (Nat × Nat)) : Bool := rising g && g.all fun entry => decide (entry.1 < 2 ^ 8)

/-- What must hold of a run's parameters at reset: `N <= 0xFFFF` (20_memory.md R61, 70_reset_and_hazards.md R252) and a
stack image in canonical form. -/
def cfgWf (p : RunConfig) : Bool :=
  decide (p.prog.length ≤ Config.maxProgramLength) && Memory.wf p.stackImage

end Sys2Proof.Machine
end

