-- ==== Sys2Proof/Machine/Status.lean ====
section
/-! DEFINITION. What a step reports to the host (10_state.md R38; 60_exceptions.md R220 to R224). -/

namespace Sys2Proof.Machine

/-- The two error kinds, "disjoint error kinds" that "must remain distinguishable to callers" (R222). -/
inductive ErrorKind where
  | malformedInstruction
  | runtimeError
deriving DecidableEq, Repr

/-- The `status` port: the result of the last step (R38). -/
inductive Status where
  | ok
  | err (f : Fault)
  /-- Not a status of the spec: it carries exec's refusal, which no arm of exec answers. -/
  | refused (r : Refusal)
deriving DecidableEq, Repr

/-- What a host event leaves behind: the state and the reported status, the pair `(S', status)` of
44_commit_and_loop.md R210. -/
structure Reply where
  state : State
  status : Status
deriving DecidableEq, Repr

/-- The kind of an error (R220, R221). -/
def errorKind : Fault → ErrorKind
  | .malformedInstruction _ _ => .malformedInstruction
  | .malformedOperands _ => .malformedInstruction
  | .runtimeError _ => .runtimeError

/-- The numeric code of an error kind (R222). -/
def errorCode : ErrorKind → Nat
  | .malformedInstruction => 1
  | .runtimeError => 2

/-- The numeric code on the `status` port: 0 is ok (R222). A refusal has no code. -/
def statusCode : Status → Option Nat
  | .ok => some 0
  | .err f => some (errorCode (errorKind f))
  | .refused _ => none

/-- A reply as one of the three outcomes of the host's interface. An error is a fault, never a final state (R224);
the state the error leaves stays readable in the reply. -/
def replyOutcome (r : Reply) : Host.Outcome State Fault Refusal :=
  match r.status with
  | .ok => .next r.state
  | .err f => .fault f
  | .refused why => .refused why

end Sys2Proof.Machine
end

