-- ==== Sys2Proof/Machine/Ops.lean ====
section
/-! DEFINITION. The named operations over registers and memory, the commit stage that applies one update descriptor
(44_commit_and_loop.md R190 to R199), and how a step is abandoned with an error (60_exceptions.md R224, R228). -/

namespace Sys2Proof.Machine

/-- `x[i]`, read from the snapshot (00_scope.md R10). -/
def readReg (s : State) (i : Reg) : Byte := s.regs[i]

/-- `MemRead(STACK, a, 1)`; it never fails (20_memory.md R62, R64). -/
def readStack (s : State) (a : Word) : Byte := readByte s.stack a

/-- `MemRead(STACK, a, n)`: the bytes `STACK[a] .. STACK[a+n-1]`, lowest address first (20_memory.md R64). Addresses are
taken modulo 2^16 (log 7). -/
def readStackBytes (s : State) (a : Word) (n : Nat) : List Byte :=
  (List.range n).map fun k => readStack s (a + BitVec.ofNat 16 k)

/-- `MemRead(HEAP, a, 1)`: the heap's byte at `a`, or no value where nothing is allocated (20_memory.md R63, R64). -/
def readHeap (s : State) (a : Word) : Option Byte := lookup a.toNat s.heap

/-- `MemWrite(STACK, a, 1, v)` (20_memory.md R65). -/
def writeStack (s : State) (a : Word) (v : Byte) : State := { s with stack := writeByte s.stack a v }

/-- `MemWrite(STACK, a, 2, v)`: `STACK[a] <- v[15:8]` and then `STACK[a+1] <- v[7:0]`, the address `a + 1` taken modulo
2^16 (20_memory.md R66, R69; log 7). -/
def writeStackLong (s : State) (a v : Word) : State :=
  writeStack (writeStack s a (v.extractLsb' 8 8)) (a + 1#16) (v.extractLsb' 0 8)

/-- The register file after a set of register writes: every named register takes its value, the others keep theirs
(R192). -/
def mergeRegs (x : Vector Byte 32) (writes : Vector (Option Byte) 32) : Vector Byte 32 :=
  ⟨(List.zipWith (fun write old => write.getD old) writes.toList x.toList).toArray, by simp⟩

/-- Action 1 of commit, the register writes (R192). -/
def commitRegs (ud : Descriptor) (s : State) : State := { s with regs := mergeRegs s.regs ud.regs }

/-- Action 2, the single memory write (R193). -/
def commitMem (ud : Descriptor) (s : State) : State :=
  match ud.mem with
  | some (a, v) => writeStack s a v
  | none => s

/-- Action 3, the stack-pointer update (R194). -/
def commitSp (ud : Descriptor) (s : State) : State := { s with sp := ud.sp.getD s.sp }

/-- Action 4, the status-register update: all eight flags at once (R195). -/
def commitFlags (ud : Descriptor) (s : State) : State := { s with flags := ud.flags.getD s.flags }

/-- Action 5, the long memory write (R196). -/
def commitLong (ud : Descriptor) (s : State) : State :=
  match ud.long with
  | some (a, v) => writeStackLong s a v
  | none => s

/-- Action 6, the PC update: always, and last (R197). -/
def commitPc (ud : Descriptor) (s : State) : State := { s with pc := ud.pc }

/-- The commit stage, "the single state-mutation entry point" (R190): the six actions in the order of R191. -/
def commit (s : State) (ud : Descriptor) : State :=
  commitPc ud (commitLong ud (commitFlags ud (commitSp ud (commitMem ud (commitRegs ud s)))))

/-- The end of an instruction: the execute stage's descriptor is committed; where the execute stage failed, nothing is
committed and the failure goes to the caller (R205, R206). -/
def complete (s : State) (e : Execution) : Host.Outcome State Fault Refusal :=
  match e with
  | .ok ud => .next (commit s ud)
  | .error f => .fault f

/-- A step ends with an error: the state stays as it stands and the error is handed to the host. There is no trap entry:
nothing is saved, no mode or mask changes, no handler gets control (60_exceptions.md R228); and there is no return from
an error (R229). -/
def abandon (s : State) (f : Fault) : Reply := ⟨s, .err f⟩

/-- The next PC of a non-branching instruction (40_instruction_contract.md R122). -/
def nextPc (s : State) : Word := s.pc + 1#16

end Sys2Proof.Machine
end

