-- ==== Sys2Proof/Machine/Arith.lean ====
section
/-! DEFINITION. The arithmetic instructions CPC and SBC (41_alu_cpc_sbc.md). -/

namespace Sys2Proof.Machine

/-- `UD{ regs = {}, flags = F', pc = pc + 1 }` with the borrow input tied to 0 (R150). -/
def cpcDescriptor (d r : Reg) (s : State) : Descriptor :=
  let out := subFlags s.cfg.mag (readReg s d) (readReg s r) false s.flags
  { onlyPc (nextPc s) with flags := some out.2 }

/-- The execute stage of `CPC d, r` (R150). -/
def runCpc (d r : Int) (s : State) : Execution :=
  match generalReg? d, generalReg? r with
  | some rd, some rr => .ok (cpcDescriptor rd rr s)
  | some _, none => illFormed (.cpc d r)
  | none, _ => illFormed (.cpc d r)

/-- `CPC d, r`, compare: the flags of `x[d] - x[r]`, no register written (R150). -/
def execCpc (d r : Int) (s : State) : Host.Outcome State Fault Refusal := complete s (runCpc d r s)

/-- `UD{ regs = { d -> result }, flags = F', pc = pc + 1 }` with the old carry as borrow input (R151). -/
def sbcDescriptor (d r : Reg) (s : State) : Descriptor :=
  let out := subFlags s.cfg.mag (readReg s d) (readReg s r) s.flags.c s.flags
  { onlyPc (nextPc s) with regs := oneRegWrite d out.1, flags := some out.2 }

/-- The execute stage of `SBC d, r` (R151). -/
def runSbc (d r : Int) (s : State) : Execution :=
  match generalReg? d, generalReg? r with
  | some rd, some rr => .ok (sbcDescriptor rd rr s)
  | some _, none => illFormed (.sbc d r)
  | none, _ => illFormed (.sbc d r)

/-- `SBC d, r`, subtract with carry: `x[d] - x[r] - C` into `x[d]`, and its flags (R151). -/
def execSbc (d r : Int) (s : State) : Host.Outcome State Fault Refusal := complete s (runSbc d r s)

end Sys2Proof.Machine
end

