-- ==== Sys2Proof/Machine/Load.lean ====
section
/-! DEFINITION. The load-immediate instruction LDI (42_ldi.md). -/

namespace Sys2Proof.Machine

/-- `UD{ regs = { d -> k }, pc = pc + 1 }`, no flag state (R170). -/
def ldiDescriptor (d : Reg) (k : Byte) (s : State) : Descriptor :=
  { onlyPc (nextPc s) with regs := oneRegWrite d k }

/-- The execute stage of `LDI d, k` (R170). -/
def runLdi (d k : Int) (s : State) : Execution :=
  match upperReg? d, immediate? k with
  | some rd, some imm => .ok (ldiDescriptor rd imm s)
  | some _, none => illFormed (.ldi d k)
  | none, _ => illFormed (.ldi d k)

/-- `LDI d, k`, load immediate: `k` into `x[d]`, no flag changes (R170). -/
def execLdi (d k : Int) (s : State) : Host.Outcome State Fault Refusal := complete s (runLdi d k s)

end Sys2Proof.Machine
end

