-- ==== Sys2Proof/Machine/Marker.lean ====
section
/-! DEFINITION. The label marker LABEL (43_label.md). -/

namespace Sys2Proof.Machine

/-- The execute stage of `LABEL id`: `UD{ regs = {}, pc = pc + 1 }` (R180). -/
def runLabel (id : Int) (s : State) : Execution :=
  match labelId? id with
  | some _ => .ok (onlyPc (nextPc s))
  | none => illFormed (.label id)

/-- `LABEL id`: the pc goes to `pc + 1` and nothing else happens (R180). The loop guard, which runs before execution, is
`loopGuard` in Machine/Loop.lean. -/
def execLabel (id : Int) (s : State) : Host.Outcome State Fault Refusal := complete s (runLabel id s)

end Sys2Proof.Machine
end

