-- ==== Sys2Proof/Machine/Loop.lean ====
section
/-! DEFINITION. The fetch-execute-commit loop with its batch-mode loop guard (44_commit_and_loop.md R200 to R210). -/

namespace Sys2Proof.Machine

/-- `N`, the number of entries in program space (20_memory.md R61). -/
def programLength (s : State) : Nat := s.cfg.prog.length

/-- The fetch stage: the word `prog[pc]`, or nothing where the PC is out of bounds (R202). -/
def fetch (s : State) : Option Word := s.cfg.prog[s.pc.toNat]?

/-- The one question the loop asks of a decoded instruction: "is it a marker, and if so with which id" (R182). -/
def markerId? : Instr → Option LabelId
  | .label id => labelId? id
  | .cpc _ _ => none
  | .sbc _ _ => none
  | .ldi _ _ => none

/-- `guard[id]`: absent or a natural number (10_state.md R35). -/
def guardCount (s : State) (id : LabelId) : Option Nat := lookup id.toNat s.guard

/-- `guard[id] <- n`. -/
def setGuard (s : State) (id : LabelId) (n : Nat) : State := { s with guard := put id.toNat n s.guard }

/-- One encounter of the marker `id` in batch mode: the first sets its counter to 0; each later one increments it, and
where the count after the increment exceeds `MAX_JUMPS` the step fails. The increment is kept (R204). -/
def countEncounter (id : LabelId) (s : State) : Reply :=
  match guardCount s id with
  | none => ⟨setGuard s id 0, .ok⟩
  | some n =>
    if n + 1 > s.cfg.maxJumps then abandon (setGuard s id (n + 1)) (.runtimeError id)
    else ⟨setGuard s id (n + 1), .ok⟩

/-- The loop guard stage: performed only in batch mode and only for a marker (R204, R209). Status `ok` lets the step go
on. -/
def loopGuard (i : Instr) (s : State) : Reply :=
  match markerId? i with
  | some id => if s.cfg.batch then countEncounter id s else ⟨s, .ok⟩
  | none => ⟨s, .ok⟩

/-- Is the PC at or beyond the program's length, or the sentinel? (R207) -/
def atEnd (s : State) : Bool := decide (programLength s ≤ s.pc.toNat) || s.pc == Config.sentinel

/-- The state Finished (10_state.md R33). -/
def finish (s : State) : State := { s with finished := true }

/-- The termination check after commit (R207). -/
def terminationCheck (s : State) : State := if atEnd s then finish s else s

/-- Execute, commit and the termination check, from the state the guard stage left (R205 to R207). A failure of the
execute stage leaves that state as it is. -/
def runInstr (i : Instr) (s : State) : Reply :=
  match exec i s with
  | .next t => ⟨terminationCheck t, .ok⟩
  | .fault f => abandon s f
  | .refused why => ⟨s, .refused why⟩

/-- The guard stage and, where it lets the step go on, the rest of the step. -/
def runGuarded (i : Instr) (s : State) : Reply :=
  match (loopGuard i s).status with
  | .ok => runInstr i (loopGuard i s).state
  | .err _ => loopGuard i s
  | .refused _ => loopGuard i s

/-- One `step` request, the whole step as one function (R210), in the order of 60_exceptions.md R227. -/
def request (s : State) : Reply :=
  if s.finished then ⟨s, .ok⟩
  else
    match fetch s with
    | none => ⟨finish s, .ok⟩
    | some w =>
      match decode w with
      | .reserved => abandon s (.malformedInstruction s.pc w)
      | .instr i => runGuarded i s

/-- The index at which `storeAtFetch` puts a word: the PC, or 0 where the PC is the sentinel, which is never the index
of an instruction (10_state.md R25). -/
def placeIndex (s : State) : Nat := if s.pc = Config.sentinel then 0 else s.pc.toNat

/-- The program with word `w` at index `k`, padded with zero words where it was shorter (log 6). -/
def progWith (prog : List Word) (k : Nat) (w : Word) : List Word :=
  prog.take k ++ List.replicate (k - prog.length) 0x0000#16 ++ w :: prog.drop (k + 1)

/-- The state in which the very next step fetches `w`: `w` stands at the PC's index and the core is Running. It stands
for the load of a program from outside the machine (log 6). -/
def storeAtFetch (s : State) (w : Word) : State :=
  { s with
    cfg := { s.cfg with prog := progWith s.cfg.prog (placeIndex s) w }
    pc := BitVec.ofNat 16 (placeIndex s)
    finished := false }

end Sys2Proof.Machine
end

