-- ==== Sys2Proof/Machine/Step.lean ====
section
/-! DEFINITION. The host's step, and the placing of an instruction where the next step fetches it. -/

namespace Sys2Proof.Machine

/-- One step request as the host's interface sees it: `request` (Machine/Loop.lean) with its reply as an outcome. -/
def step (s : State) : Host.Outcome State Fault Refusal := replyOutcome (request s)

/-- `s` with the instruction word `w` (its `nbits` low bits) where step fetches its next instruction (log 6). -/
def State.withFetchWord (s : State) (nbits w : Nat) : State := storeAtFetch s (tableWord nbits w)

end Sys2Proof.Machine
end

