-- ==== Sys2Proof/Machine/Ports.lean ====
section
/-! DEFINITION. The host's ports (10_state.md R38, R39): the events it may send and what it may observe. -/

namespace Sys2Proof.Machine

/-- The host's liberties, exactly these two: it may assert `reset` with the parameters of a run, and it may request
`step`, at any time and any number of times (R38). It has no event that writes a register, a flag, the PC, the stack
pointer or a data space, or that changes a parameter during a run (log 11). -/
inductive HostEvent where
  | reset (p : RunConfig)
  | step
deriving DecidableEq, Repr

/-- One host event: what it leaves and the status it reports. Reset gives every piece of state its reset value, from any
state, and the status is then `ok` (70_reset_and_hazards.md R250, R251). A step request is answered in every state, after
an error too (60_exceptions.md R224). -/
def respond (r : Reply) : HostEvent → Reply
  | .reset p => ⟨State.resetWith p, .ok⟩
  | .step => request r.state

/-- A sequence of host events, in the order the host sends them (20_memory.md R73). -/
def drive (r : Reply) : List HostEvent → Reply
  | [] => r
  | e :: es => drive (respond r e) es

/-- `n` step requests in a row, whatever each one reports. -/
def requests : Nat → State → State
  | 0, s => s
  | n + 1, s => requests n (request s).state

/-- The `running` port: `running = not finished` (R38). -/
def running (s : State) : Bool := !s.finished

/-- What the observation ports show of the state (R39), but for the stack, which `readStack` shows byte by byte. -/
structure Observation where
  x : Vector Byte 32
  sreg : Byte
  pc : Word
  sp : Word
  running : Bool
deriving DecidableEq, Repr

/-- The observation ports: read-only, showing the committed state (R39). -/
def observe (s : State) : Observation where
  x := s.regs
  sreg := packFlags s.flags
  pc := s.pc
  sp := s.sp
  running := running s

end Sys2Proof.Machine
end

