-- ==== Sys2Proof/Safety.lean ====
section
/-! DEFINITION. What counts as a sound state and a safe run, in the terms the statements use. -/

namespace Sys2Proof.Machine

/-- What every step keeps. Each field names the rule it comes from. -/
structure Sound (s : State) : Prop where
  /-- `N <= 0xFFFF` and the stack image is in canonical form (20_memory.md R61). -/
  cfg : cfgWf s.cfg = true
  /-- The stack space is in canonical form. -/
  stack : Memory.wf s.stack = true
  /-- The heap space is in canonical form. -/
  heap : heapWf s.heap = true
  /-- The counters are in canonical form, each under an 8-bit id (10_state.md R35). -/
  guardForm : guardWf s.guard = true
  /-- No counter a step goes on with has passed the configured maximum (44_commit_and_loop.md R204). -/
  guardBound : ∀ id n, guardCount s id = some n → n ≤ s.cfg.maxJumps
  /-- In interactive mode the counters are never written and stay absent (44_commit_and_loop.md R209). -/
  guardAbsent : s.cfg.batch = false → s.guard = []
  /-- `F.S = F.N xor F.V` in every reachable state (10_state.md R28). -/
  sign : s.flags.s = (s.flags.n ^^ s.flags.v)
  /-- Finished is entered only at or beyond the program's end (44_commit_and_loop.md R202, R207). -/
  ended : s.finished = true → programLength s ≤ s.pc.toNat

/-- A run of `n` steps from `s` that meets no error and ends in Finished, in its last step and not before: a completed
run (44_commit_and_loop.md R211). -/
def CompletesIn (n : Nat) (s : State) : Prop :=
  (∃ t, Host.Core.run Sys2Proof.core n s = .next t ∧ t.finished = true) ∧
    ∀ k, k < n → ∃ t, Host.Core.run Sys2Proof.core k s = .next t ∧ t.finished = false

/-- A run that meets an error after some completed steps: an aborted run (44_commit_and_loop.md R211). -/
def Aborts (s : State) (f : Fault) : Prop := ∃ n, Host.Core.run Sys2Proof.core n s = .fault f

end Sys2Proof.Machine
end

