-- ==== Sys2Proof/Certificates/Slice0/Obligations.lean ====
section
/-! DEFINITION. The statements for the provers, from the numbered rules of spec/. Each docstring names the rule, or says
that the statement is derived and from what. -/

open Sys2Proof Sys2Proof.Machine

/-! ### Decoding and encoding -/

/-- Derived from 30_encoding.md section 3: "decode(encode(i)) = i for every well-formed i". The encodings are the spec's
own choice (D4, log 13). -/
def Obligations.DecodeOfEncodeIsTheInstruction : Prop :=
  ∀ i : Instr, i.wellFormed = true → decode (encode i) = .instr i

/-- Derived from 30_encoding.md section 3: "encode(decode(w)) = w for every legal w"; and what the decoder gives is well
formed. The encodings are the spec's own choice (D4, log 13). -/
def Obligations.EncodeOfDecodeIsTheWord : Prop :=
  ∀ (w : Word) (i : Instr), decode w = .instr i → i.wellFormed = true ∧ encode i = w

/-- Derived from 30_encoding.md sections 3 and 4: a word decodes to an instruction of a mnemonic exactly when it lies
under that row's mask and pattern, and is reserved exactly when no row fits. The encodings and the reserved class are
the spec's own choices (D4, D5, log 13). -/
def Obligations.DecoderFollowsTheOpcodeMap : Prop :=
  ∀ w : Word,
    ((∃ id, decode w = .instr (.label id)) ↔ w &&& 0xFF00#16 = 0x0000#16) ∧
    ((∃ d r, decode w = .instr (.cpc d r)) ↔ w &&& 0xFC00#16 = 0x0400#16) ∧
    ((∃ d r, decode w = .instr (.sbc d r)) ↔ w &&& 0xFC00#16 = 0x0800#16) ∧
    ((∃ d k, decode w = .instr (.ldi d k)) ↔ w &&& 0xF000#16 = 0xE000#16) ∧
    (decode w = .reserved ↔ w &&& 0xFF00#16 ≠ 0x0000#16 ∧ w &&& 0xFC00#16 ≠ 0x0400#16 ∧
      w &&& 0xFC00#16 ≠ 0x0800#16 ∧ w &&& 0xF000#16 ≠ 0xE000#16)

/-- Derived from 95_test_vectors.md V1: a few words of each family, and the reserved words at the edges. The encodings
and the reserved class are the spec's own choices (D4, D5, log 13). -/
def Obligations.DecoderReadsTheSampleWords : Prop :=
  decode 0x0000#16 = .instr (.label 0) ∧ decode 0x00FF#16 = .instr (.label 255) ∧
  decode 0x0591#16 = .instr (.cpc 25 1) ∧ decode 0x0600#16 = .instr (.cpc 0 16) ∧
  decode 0x0B23#16 = .instr (.sbc 18 19) ∧ decode 0x0A0F#16 = .instr (.sbc 0 31) ∧
  decode 0xEA45#16 = .instr (.ldi 20 0xA5) ∧ decode 0xEFFF#16 = .instr (.ldi 31 0xFF) ∧
  decode 0x0100#16 = .reserved ∧ decode 0x03FF#16 = .reserved ∧ decode 0x0C00#16 = .reserved ∧
  decode 0xDFFF#16 = .reserved ∧ decode 0xF000#16 = .reserved

/-! ### Construction -/

/-- Derived from 40_instruction_contract.md section 1 and 30_encoding.md section 4: an instruction with an operand out of
its range is refused with Malformed-Instruction, and no other instruction is. (`LABEL`'s range is the spec's choice, D6;
that the model raises this from exec is log 5.) -/
def Obligations.OperandsOutOfRangeAreMalformed : Prop :=
  (∀ (s : State) (d r : Int), exec (.cpc d r) s = .fault (.malformedOperands (.cpc d r)) ↔
    ¬(0 ≤ d ∧ d ≤ 31 ∧ 0 ≤ r ∧ r ≤ 31)) ∧
  (∀ (s : State) (d r : Int), exec (.sbc d r) s = .fault (.malformedOperands (.sbc d r)) ↔
    ¬(0 ≤ d ∧ d ≤ 31 ∧ 0 ≤ r ∧ r ≤ 31)) ∧
  (∀ (s : State) (d k : Int), exec (.ldi d k) s = .fault (.malformedOperands (.ldi d k)) ↔
    ¬(16 ≤ d ∧ d ≤ 31 ∧ 0 ≤ k ∧ k ≤ 255)) ∧
  (∀ (s : State) (id : Int), exec (.label id) s = .fault (.malformedOperands (.label id)) ↔
    ¬(0 ≤ id ∧ id ≤ 255)) ∧
  (∀ i : Instr, errorKind (.malformedOperands i) = .malformedInstruction) ∧
  (∀ i : Instr, construct i = if i.wellFormed then .ok i else .error (.malformedOperands i))

/-! ### What each instruction does -/

/-- The flags CPC and SBC leave, written out from rules R130 to R135: `a` and `b` are the old operands and `result` the
8-bit difference. -/
def flagsByRules (mag : Mag) (a b result : Byte) (f : Flags) : Flags where
  c := decide (magnitude mag b > magnitude mag a)
  z := decide (result = 0x00#8)
  n := result.getLsbD 7
  v := (a.getLsbD 7 && !b.getLsbD 7 && !result.getLsbD 7) || (!a.getLsbD 7 && b.getLsbD 7 && result.getLsbD 7)
  s := result.getLsbD 7 ^^
    ((a.getLsbD 7 && !b.getLsbD 7 && !result.getLsbD 7) || (!a.getLsbD 7 && b.getLsbD 7 && result.getLsbD 7))
  h := f.h
  t := f.t
  i := f.i

/-- Derived from 41_alu_cpc_sbc.md (R150): `CPC d, r`, its encoding and the state it leaves. The encoding is the spec's
own choice (D4, log 13), and so is the reduction to 8 bits (D1). R150 has no failure at execution and refuses an operand
out of range at construction; that exec answers the fault `malformedOperands` there is the model's choice (log 5). -/
def Obligations.CpcSetsFlagsOfDifference : Prop :=
  (∀ w : Word, w.extractLsb' 10 6 = 0b000001#6 →
    decode w = .instr (.cpc (w.extractLsb' 8 1 ++ w.extractLsb' 4 4).toNat (w.extractLsb' 9 1 ++ w.extractLsb' 0 4).toNat)) ∧
  (∀ (d r : Reg) (s : State),
    exec (.cpc d.val r.val) s = .next
      { s with
        flags := flagsByRules s.cfg.mag (readReg s d) (readReg s r) (readReg s d - readReg s r) s.flags
        pc := s.pc + 1#16 }) ∧
  (∀ (d r : Int) (s : State), ¬(0 ≤ d ∧ d ≤ 31 ∧ 0 ≤ r ∧ r ≤ 31) →
    exec (.cpc d r) s = .fault (.malformedOperands (.cpc d r)))

/-- Derived from 41_alu_cpc_sbc.md (R151): `SBC d, r`, its encoding and the state it leaves. The encoding is the spec's
own choice (D4, log 13), and so is the reduction to 8 bits (D1). R151 refuses an operand out of range at construction
only; that exec answers the fault `malformedOperands` there is the model's choice (log 5). -/
def Obligations.SbcSubtractsWithCarry : Prop :=
  (∀ w : Word, w.extractLsb' 10 6 = 0b000010#6 →
    decode w = .instr (.sbc (w.extractLsb' 8 1 ++ w.extractLsb' 4 4).toNat (w.extractLsb' 9 1 ++ w.extractLsb' 0 4).toNat)) ∧
  (∀ (d r : Reg) (s : State) (result : Byte),
    result = readReg s d - readReg s r - (if s.flags.c then 1#8 else 0#8) →
    exec (.sbc d.val r.val) s = .next
      { s with
        regs := s.regs.set d result
        flags := flagsByRules s.cfg.mag (readReg s d) (readReg s r) result s.flags
        pc := s.pc + 1#16 }) ∧
  (∀ (d r : Int) (s : State), ¬(0 ≤ d ∧ d ≤ 31 ∧ 0 ≤ r ∧ r ≤ 31) →
    exec (.sbc d r) s = .fault (.malformedOperands (.sbc d r)))

/-- Derived from 42_ldi.md (R170): `LDI d, k`, its encoding and the state it leaves. The encoding is the spec's own
choice (D4, log 13). R170 refuses an operand out of range at construction only; that exec answers the fault
`malformedOperands` there is the model's choice (log 5). -/
def Obligations.LdiLoadsTheImmediate : Prop :=
  (∀ w : Word, w.extractLsb' 12 4 = 0b1110#4 →
    decode w = .instr (.ldi (16 + (w.extractLsb' 4 4).toNat) (w.extractLsb' 8 4 ++ w.extractLsb' 0 4).toNat)) ∧
  (∀ (d : Reg) (k : Byte) (s : State), 16 ≤ d.val →
    exec (.ldi d.val k.toNat) s = .next { s with regs := s.regs.set d k, pc := s.pc + 1#16 }) ∧
  (∀ (d k : Int) (s : State), ¬(16 ≤ d ∧ d ≤ 31 ∧ 0 ≤ k ∧ k ≤ 255) →
    exec (.ldi d k) s = .fault (.malformedOperands (.ldi d k)))

/-- Derived from 43_label.md: `LABEL id`, its encoding and the state it leaves. The encoding is the spec's own choice
(D4, log 13), and so is the effect of a marker (D7). -/
def Obligations.LabelOnlyAdvancesThePc : Prop :=
  (∀ w : Word, w.extractLsb' 8 8 = 0x00#8 → decode w = .instr (.label (w.extractLsb' 0 8).toNat)) ∧
  (∀ (id : LabelId) (s : State), exec (.label id.toNat) s = .next { s with pc := s.pc + 1#16 })

/-! ### The flags -/

/-- Rules R132, R134 and R135: N is bit 7 of the result, S is the xor of the new N and V, and H, T, I are kept. The
result is what SBC writes, and for CPC the difference it discards. -/
def Obligations.NegativeSignAndKeptFlags : Prop :=
  ∀ (d r : Reg) (s : State),
    (∃ t, exec (.cpc d.val r.val) s = .next t ∧
      t.flags.n = (readReg s d - readReg s r).getLsbD 7 ∧ t.flags.s = (t.flags.n ^^ t.flags.v) ∧
      t.flags.h = s.flags.h ∧ t.flags.t = s.flags.t ∧ t.flags.i = s.flags.i) ∧
    (∃ t, exec (.sbc d.val r.val) s = .next t ∧
      t.flags.n = (readReg t d).getLsbD 7 ∧ t.flags.s = (t.flags.n ^^ t.flags.v) ∧
      t.flags.h = s.flags.h ∧ t.flags.t = s.flags.t ∧ t.flags.i = s.flags.i)

/-- Rule R130: the carry of CPC and SBC compares the magnitudes of the old operands, whatever the old flags are, and it
is not the borrow of an unsigned subtraction. -/
def Obligations.CarryComparesMagnitudes : Prop :=
  (∀ (d r : Reg) (s : State) (f : Flags),
    ∃ t u, exec (.cpc d.val r.val) { s with flags := f } = .next t ∧
      exec (.sbc d.val r.val) { s with flags := f } = .next u ∧
      (t.flags.c = true ↔ magnitude s.cfg.mag (readReg s r) > magnitude s.cfg.mag (readReg s d)) ∧
      (u.flags.c = true ↔ magnitude s.cfg.mag (readReg s r) > magnitude s.cfg.mag (readReg s d))) ∧
  (∃ (d r : Reg) (s t u : State), s.cfg.mag = .signed8 ∧ exec (.cpc d.val r.val) s = .next t ∧
    exec (.sbc d.val r.val) s = .next u ∧
    t.flags.c ≠ decide ((readReg s d).toNat < (readReg s r).toNat) ∧
    u.flags.c ≠ decide ((readReg s d).toNat < (readReg s r).toNat))

/-- Derived from 40_instruction_contract.md section 4 (R137, whose instance is the spec's choice, D2): the carry under
each instance of the magnitude function; the two agree where bit 7 of both operands is clear; equal operands never set
it. -/
def Obligations.CarryUnderEachMagnitude : Prop :=
  ∀ (d r : Reg) (s : State),
    ∃ t u, exec (.cpc d.val r.val) { s with cfg := { s.cfg with mag := .signed8 } } = .next t ∧
      exec (.cpc d.val r.val) { s with cfg := { s.cfg with mag := .unsigned8 } } = .next u ∧
      t.flags.c = decide (
        (if (readReg s r).getLsbD 7 then 256 - (readReg s r).toNat else (readReg s r).toNat) >
        (if (readReg s d).getLsbD 7 then 256 - (readReg s d).toNat else (readReg s d).toNat)) ∧
      u.flags.c = decide ((readReg s r).toNat > (readReg s d).toNat) ∧
      ((readReg s d).getLsbD 7 = false → (readReg s r).getLsbD 7 = false → t.flags.c = u.flags.c) ∧
      (readReg s d = readReg s r → t.flags.c = false ∧ u.flags.c = false)

/-- Derived from 40_instruction_contract.md section 4 (R128, R129, R131; the reduction to 8 bits is the spec's choice,
D1): SBC writes the difference modulo 256, of the unsigned and of the signed operands; Z is set exactly when the integer
difference is 0 or -256, and -256 has one cause. -/
def Obligations.SbcWritesDifferenceModulo256 : Prop :=
  ∀ (d r : Reg) (s : State) (z : Int),
    z = (readReg s d).toNat - (readReg s r).toNat - (if s.flags.c then 1 else 0) →
    ∃ t, exec (.sbc d.val r.val) s = .next t ∧
      ((readReg t d).toNat : Int) = z % 256 ∧
      ((readReg t d).toNat : Int) =
        ((readReg s d).toInt - (readReg s r).toInt - (if s.flags.c then 1 else 0)) % 256 ∧
      (t.flags.z = true ↔ z = 0 ∨ z = -256) ∧
      (z = -256 ↔ readReg s d = 0x00#8 ∧ readReg s r = 0xFF#8 ∧ s.flags.c = true)

/-- Derived from 40_instruction_contract.md section 4 (R133 and its equivalence): V is set exactly when the signed
difference leaves the range of 8 bits. -/
def Obligations.OverflowIsSignedOverflow : Prop :=
  ∀ (d r : Reg) (s : State),
    (∃ t, exec (.cpc d.val r.val) s = .next t ∧
      (t.flags.v = true ↔ (readReg s d).toInt - (readReg s r).toInt < -128 ∨
        127 < (readReg s d).toInt - (readReg s r).toInt)) ∧
    (∃ t, exec (.sbc d.val r.val) s = .next t ∧
      (t.flags.v = true ↔
        (readReg s d).toInt - (readReg s r).toInt - (if s.flags.c then 1 else 0) < -128 ∨
        127 < (readReg s d).toInt - (readReg s r).toInt - (if s.flags.c then 1 else 0)))

/-- Derived from the corner cases of 41_alu_cpc_sbc.md: comparing equal contents sets Z and clears C, N, V, S; and
`sbc d, d` reads the old value twice, leaves 0x00 or 0xFF by the old carry and always clears the carry. -/
def Obligations.EqualOperandsClearTheCarry : Prop :=
  (∀ (d r : Reg) (s : State), readReg s d = readReg s r →
    ∃ t, exec (.cpc d.val r.val) s = .next t ∧
      t.flags.z = true ∧ t.flags.c = false ∧ t.flags.n = false ∧ t.flags.v = false ∧ t.flags.s = false) ∧
  (∀ (d : Reg) (s : State),
    ∃ t, exec (.sbc d.val d.val) s = .next t ∧
      readReg t d = (if s.flags.c then 0xFF#8 else 0x00#8) ∧ t.flags.c = false ∧ t.flags.v = false ∧
      t.flags.z = !s.flags.c ∧ t.flags.n = s.flags.c ∧ t.flags.s = s.flags.c)

/-- Derived from 10_state.md R30 (the bit order is the spec's choice, D17, log 12): where each flag stands in the packed
byte. -/
def Obligations.PackedStatusByte : Prop :=
  ∀ s : State,
    (observe s).sreg.getLsbD 0 = s.flags.c ∧ (observe s).sreg.getLsbD 1 = s.flags.z ∧
    (observe s).sreg.getLsbD 2 = s.flags.n ∧ (observe s).sreg.getLsbD 3 = s.flags.v ∧
    (observe s).sreg.getLsbD 4 = s.flags.s ∧ (observe s).sreg.getLsbD 5 = s.flags.h ∧
    (observe s).sreg.getLsbD 6 = s.flags.t ∧ (observe s).sreg.getLsbD 7 = s.flags.i

/-! ### Frames -/

/-- The frame of CPC and SBC: CPC leaves every register, SBC every register but `d`; both leave H, T, I, the stack
pointer, every byte of the stack and of the heap, the termination flag, every loop-guard counter and the parameters. -/
def Obligations.ArithmeticFrame : Prop :=
  ∀ (d r : Int) (s t : State),
    (exec (.cpc d r) s = .next t →
      (∀ q : Reg, readReg t q = readReg s q) ∧
      t.flags.h = s.flags.h ∧ t.flags.t = s.flags.t ∧ t.flags.i = s.flags.i ∧ t.sp = s.sp ∧
      (∀ a, readStack t a = readStack s a) ∧ (∀ a, readHeap t a = readHeap s a) ∧
      t.finished = s.finished ∧ (∀ id, guardCount t id = guardCount s id) ∧ t.cfg = s.cfg) ∧
    (exec (.sbc d r) s = .next t →
      (∀ q : Reg, (q.val : Int) ≠ d → readReg t q = readReg s q) ∧
      t.flags.h = s.flags.h ∧ t.flags.t = s.flags.t ∧ t.flags.i = s.flags.i ∧ t.sp = s.sp ∧
      (∀ a, readStack t a = readStack s a) ∧ (∀ a, readHeap t a = readHeap s a) ∧
      t.finished = s.finished ∧ (∀ id, guardCount t id = guardCount s id) ∧ t.cfg = s.cfg)

/-- The frame of LDI and LABEL: LDI leaves every register but `d`, LABEL every register; both leave all eight flags, the
stack pointer, every byte of the stack and of the heap, the termination flag, every counter and the parameters. -/
def Obligations.LoadAndMarkerFrame : Prop :=
  ∀ (d k id : Int) (s t : State),
    (exec (.ldi d k) s = .next t →
      (∀ q : Reg, (q.val : Int) ≠ d → readReg t q = readReg s q) ∧ t.flags = s.flags ∧ t.sp = s.sp ∧
      (∀ a, readStack t a = readStack s a) ∧ (∀ a, readHeap t a = readHeap s a) ∧
      t.finished = s.finished ∧ (∀ l, guardCount t l = guardCount s l) ∧ t.cfg = s.cfg) ∧
    (exec (.label id) s = .next t →
      (∀ q : Reg, readReg t q = readReg s q) ∧ t.flags = s.flags ∧ t.sp = s.sp ∧
      (∀ a, readStack t a = readStack s a) ∧ (∀ a, readHeap t a = readHeap s a) ∧
      t.finished = s.finished ∧ (∀ l, guardCount t l = guardCount s l) ∧ t.cfg = s.cfg)

/-- Derived from 10_state.md section 1 and 42_ldi.md (R21, R171): over any step request, a register changes only where
the fetched instruction is an SBC or an LDI that names it as destination; a lower register only by SBC. -/
def Obligations.RegistersChangeOnlyBySbcAndLdi : Prop :=
  ∀ (s : State) (q : Reg), readReg (request s).state q ≠ readReg s q →
    s.finished = false ∧ ∃ w, fetch s = some w ∧
      ((∃ r : Int, decode w = .instr (.sbc q.val r)) ∨
        (16 ≤ q.val ∧ ∃ k : Int, decode w = .instr (.ldi q.val k)))

/-- Derived from 10_state.md sections 3 and 4 and 20_memory.md (R27, R31, R60, R63): over any step request, the flags
change only where the fetched instruction is a CPC or an SBC; H, T, I, the stack pointer, the stack and the heap never
change. -/
def Obligations.FlagsChangeOnlyByCpcAndSbc : Prop :=
  ∀ s : State,
    ((request s).state.flags ≠ s.flags → s.finished = false ∧ ∃ w d r, fetch s = some w ∧
      (decode w = .instr (.cpc d r) ∨ decode w = .instr (.sbc d r))) ∧
    (request s).state.flags.h = s.flags.h ∧ (request s).state.flags.t = s.flags.t ∧
    (request s).state.flags.i = s.flags.i ∧ (request s).state.sp = s.sp ∧
    (∀ a, readStack (request s).state a = readStack s a) ∧ (∀ a, readHeap (request s).state a = readHeap s a)

/-! ### The commit stage -/

/-- Rules R192, R195 and R197: register writes, the status-register update and the PC update of any descriptor. -/
def Obligations.CommitWritesRegistersFlagsAndPc : Prop :=
  ∀ (s : State) (ud : Descriptor),
    (∀ (i : Reg) (v : Byte), ud.regs[i] = some v → readReg (commit s ud) i = v) ∧
    (∀ i : Reg, ud.regs[i] = none → readReg (commit s ud) i = readReg s i) ∧
    (∀ f, ud.flags = some f → (commit s ud).flags = f) ∧ (ud.flags = none → (commit s ud).flags = s.flags) ∧
    (commit s ud).pc = ud.pc

/-- Derived from 44_commit_and_loop.md section 1 (R193, R196) and 20_memory.md section 4: every byte of the stack after
the commit of any descriptor. That the long write's bytes win over the single write's is the spec's inference (R198);
that both go to the stack is the spec's choice (D15); that the second address wraps at 0xFFFF is the spec's choice (R69,
D10), where a model may also refuse, and this model takes the wrap (log 7). -/
def Obligations.CommitWritesStackBytes : Prop :=
  ∀ (s : State) (ud : Descriptor) (b : Word),
    (∀ a v, ud.long = some (a, v) → b = a → readStack (commit s ud) b = v.extractLsb' 8 8) ∧
    (∀ a v, ud.long = some (a, v) → b = a + 1#16 → readStack (commit s ud) b = v.extractLsb' 0 8) ∧
    ((∀ a v, ud.long = some (a, v) → b ≠ a ∧ b ≠ a + 1#16) →
      (∀ a v, ud.mem = some (a, v) → b = a → readStack (commit s ud) b = v) ∧
      ((∀ a v, ud.mem = some (a, v) → b ≠ a) → readStack (commit s ud) b = readStack s b))

/-- Derived from 44_commit_and_loop.md section 1 (R190, R194): commit replaces the stack pointer only where the
descriptor carries one, never touches `finished`, the counters, the heap or the parameters, and keeps the stack's memory
in canonical form. That presence is a valid bit of the descriptor is the spec's own choice (D15). The canonical form is
the model's own choice (log 9), of which the spec says nothing. -/
def Obligations.CommitKeepsLoopStateAndCanonicalStack : Prop :=
  ∀ (s : State) (ud : Descriptor),
    (∀ v, ud.sp = some v → (commit s ud).sp = v) ∧ (ud.sp = none → (commit s ud).sp = s.sp) ∧
    (commit s ud).finished = s.finished ∧ (∀ id, guardCount (commit s ud) id = guardCount s id) ∧
    (∀ a, readHeap (commit s ud) a = readHeap s a) ∧ (commit s ud).cfg = s.cfg ∧
    (Memory.wf s.stack = true → Memory.wf (commit s ud).stack = true)

/-- Derived from 20_memory.md sections 2 to 4 (R64, R66, R67; that it goes to the stack is the spec's choice, D15): the
long write is big-endian and touches its two bytes only, at every address. At 0xFFFF the write's wrap is the spec's
choice (R69, D10), where a model may also refuse; that the two-byte read wraps there too is the model's own choice, which
R64 does not say (log 7, DEDUCED). -/
def Obligations.LongWriteIsBigEndian : Prop :=
  ∀ (s : State) (a v b : Word),
    readStackBytes (writeStackLong s a v) a 2 = [v.extractLsb' 8 8, v.extractLsb' 0 8] ∧
    (b ≠ a → b ≠ a + 1#16 → readStack (writeStackLong s a v) b = readStack s b)

/-- Derived from 44_commit_and_loop.md section 2 (R205, R190): an instruction whose execute stage fails commits nothing;
the failure is what the step reports. -/
def Obligations.FailedExecutionCommitsNothing : Prop :=
  (∀ (s : State) (f : Fault), complete s (.error f) = .fault f) ∧
  (∀ (i : Instr) (s : State) (f : Fault), exec i s = .fault f → runInstr i s = ⟨s, .err f⟩)

/-! ### The loop -/

/-- Derived from 44_commit_and_loop.md section 2 (R200, R205, R206): where the core is Running and the word at the PC
decodes to an instruction, step is exec of it at that state, with the termination check after; in batch mode a marker
whose counter lets it pass runs at the state with that counter advanced. -/
def Obligations.StepRunsTheDecodedInstruction : Prop :=
  ∀ (s : State) (w : Word) (i : Instr), s.finished = false → s.cfg.prog[s.pc.toNat]? = some w →
    decode w = .instr i →
    ∀ g : State,
      ((s.cfg.batch = false ∨ ∀ id, i ≠ .label id) ∧ g = s ∨
        ∃ id : LabelId, s.cfg.batch = true ∧ i = .label id.toNat ∧
          (guardCount s id = none ∧ g = setGuard s id 0 ∨
            ∃ n, guardCount s id = some n ∧ n + 1 ≤ s.cfg.maxJumps ∧ g = setGuard s id (n + 1))) →
      step s = match exec i g with
        | .next t =>
          .next (if programLength t ≤ t.pc.toNat ∨ t.pc = 0xFFFF#16 then { t with finished := true } else t)
        | .fault f => .fault f
        | .refused why => .refused why

/-- Derived from 44_commit_and_loop.md section 2 (R201, the spec's choice, D21): a step request while Finished changes
no state and reports ok. -/
def Obligations.FinishedStepChangesNothing : Prop :=
  ∀ s : State, s.finished = true → request s = ⟨s, .ok⟩ ∧ step s = .next s

/-- Rule R202: an out-of-bounds PC finishes the run, changes nothing else and is no error; `0xFFFF` is always out of
bounds; otherwise the fetched word is `prog[pc]`; and after an instruction's step the PC is in bounds or the run is
Finished, so that this path is taken only where the PC was out of bounds at reset. -/
def Obligations.FetchOutOfBoundsFinishes : Prop :=
  ∀ s : State, s.finished = false →
    (programLength s ≤ s.pc.toNat →
      request s = ⟨{ s with finished := true }, .ok⟩ ∧ step s = .next { s with finished := true }) ∧
    (programLength s ≤ 0xFFFF → s.pc = 0xFFFF#16 → programLength s ≤ s.pc.toNat) ∧
    (∀ h : s.pc.toNat < programLength s, fetch s = some s.cfg.prog[s.pc.toNat]) ∧
    (∀ t, s.pc.toNat < programLength s → step s = .next t → t.finished = false → t.pc.toNat < programLength t)

/-- Derived from 44_commit_and_loop.md section 2 and 60_exceptions.md section 1 (R203, R222, R223; the spec's choices, D5
and D12): a reserved word ends the step with Malformed-Instruction, which records the PC and the word; no state
changes. -/
def Obligations.ReservedWordIsMalformed : Prop :=
  ∀ (s : State) (w : Word), s.finished = false → fetch s = some w → decode w = .reserved →
    request s = ⟨s, .err (.malformedInstruction s.pc w)⟩ ∧ step s = .fault (.malformedInstruction s.pc w) ∧
    statusCode (request s).status = some 1

/-- Derived from 44_commit_and_loop.md section 2 and 43_label.md (R204, R181; the spec's choices, D6 and D8): one
encounter of a marker in batch mode. The counter is chosen by the id alone; the first encounter sets it to 0, a later one
increments it; past `MAX_JUMPS` the step ends with Runtime-Error, keeping the increment and changing nothing else. -/
def Obligations.LoopGuardCountsEncounters : Prop :=
  ∀ (s : State) (w : Word) (id : LabelId), s.finished = false → s.cfg.batch = true → fetch s = some w →
    decode w = .instr (.label id.toNat) →
    (guardCount s id = none →
      (request s).status = .ok ∧ guardCount (request s).state id = some 0 ∧ (request s).state.pc = s.pc + 1#16) ∧
    (∀ n, guardCount s id = some n → n + 1 ≤ s.cfg.maxJumps →
      (request s).status = .ok ∧ guardCount (request s).state id = some (n + 1) ∧
        (request s).state.pc = s.pc + 1#16) ∧
    (∀ n, guardCount s id = some n → s.cfg.maxJumps < n + 1 →
      (request s).status = .err (.runtimeError id) ∧ statusCode (request s).status = some 2 ∧
        guardCount (request s).state id = some (n + 1) ∧
        (request s).state = { s with guard := (request s).state.guard }) ∧
    (∀ other : LabelId, other ≠ id → guardCount (request s).state other = guardCount s other)

/-- Derived from 44_commit_and_loop.md section 2 (R204, D8): after the `k`-th encounter of a label its counter holds
`k - 1`, and the first encounter to fail is the `MAX_JUMPS + 2`-nd. Here `k` encounters came before. -/
def Obligations.GuardPassesMaxJumpsPlusOneEncounters : Prop :=
  ∀ (s : State) (id : LabelId) (k : Nat), s.cfg.batch = true → guardCount s id = none →
    let before := (fun u : State => (loopGuard (.label id.toNat) u).state)^[k] s
    guardCount (loopGuard (.label id.toNat) before).state id = some k ∧
    ((loopGuard (.label id.toNat) before).status = .ok ↔ k ≤ s.cfg.maxJumps) ∧
    ((loopGuard (.label id.toNat) before).status = .err (.runtimeError id) ↔ s.cfg.maxJumps < k)

/-- Rule R207: after the commit of any descriptor the run is Finished exactly when the PC is at or beyond the program's
length or is the sentinel; with `N <= 0xFFFF` the second implies the first; and an instruction of the core reaches it
only from index `N - 1`. -/
def Obligations.TerminationCheckAfterCommit : Prop :=
  (∀ (s : State) (ud : Descriptor), s.finished = false →
    ((terminationCheck (commit s ud)).finished = true ↔ programLength s ≤ ud.pc.toNat ∨ ud.pc = 0xFFFF#16)) ∧
  (∀ s : State, programLength s ≤ 0xFFFF → s.pc = 0xFFFF#16 → programLength s ≤ s.pc.toNat) ∧
  (∀ s t : State, s.finished = false → programLength s ≤ 0xFFFF → s.pc.toNat < programLength s → step s = .next t →
    (t.finished = true ↔ programLength t ≤ t.pc.toNat ∨ t.pc = 0xFFFF#16) ∧
    (t.finished = true ↔ s.pc.toNat + 1 = programLength s))

/-- Rule R208: no number of step requests changes a Finished state; reset leaves it; and a step that ends in an error
does not enter Finished. -/
def Obligations.FinishedIsTerminal : Prop :=
  (∀ (s : State) (n : Nat), s.finished = true →
    requests n s = s ∧ running (requests n s) = false ∧
      ∀ r, (drive ⟨s, r⟩ (List.replicate n .step)).state = s) ∧
  (∀ (r : Reply) (p : RunConfig), running (respond r (.reset p)).state = true) ∧
  (∀ (s : State) (f : Fault), (request s).status = .err f → (request s).state.finished = false)

/-- Rule R209: in interactive mode no step writes a counter or ends with Runtime-Error; and nothing else differs between
the modes: where the step passes in batch mode it passes in interactive mode and leaves the same state but for the
counters and the mode itself. -/
def Obligations.InteractiveModeSkipsTheGuard : Prop :=
  (∀ s : State, s.cfg.batch = false →
    (request s).state.guard = s.guard ∧ ∀ id, (request s).status ≠ .err (.runtimeError id)) ∧
  (∀ s : State,
    let batchMode : State := { s with cfg := { s.cfg with batch := true } }
    let interactive : State := { s with cfg := { s.cfg with batch := false } }
    (∀ id, (request batchMode).status ≠ .err (.runtimeError id)) →
      (request interactive).status = (request batchMode).status ∧
      (request interactive).state =
        { (request batchMode).state with guard := s.guard, cfg := { s.cfg with batch := false } })

/-- Derived from 60_exceptions.md section 1 (R224, the spec's choice, D20): what an error leaves. Malformed-Instruction
leaves every piece of state, Runtime-Error every piece but the counter of its label; the core stays Running; a further
step repeats the error. -/
def Obligations.ErrorLeavesTheStateAndRepeats : Prop :=
  ∀ (s : State) (f : Fault), (request s).status = .err f →
    (request s).state.finished = false ∧
    (∀ pc w, f = .malformedInstruction pc w → (request s).state = s ∧ pc = s.pc ∧ fetch s = some w) ∧
    (∀ id, f = .runtimeError id → ∃ n, guardCount s id = some n ∧ (request s).state = setGuard s id (n + 1)) ∧
    (request (request s).state).status = .err f

/-- Derived from 60_exceptions.md sections 1 and 3 (R225, R227): the exact conditions under which a step faults, and that
no step is refused. -/
def Obligations.StepFaultsExactlyThere : Prop :=
  (∀ (s : State) (f : Fault), step s = .fault f ↔
    s.finished = false ∧ ∃ w, fetch s = some w ∧
      (decode w = .reserved ∧ f = .malformedInstruction s.pc w ∨
        ∃ (id : LabelId) (n : Nat), s.cfg.batch = true ∧ decode w = .instr (.label id.toNat) ∧
          guardCount s id = some n ∧ s.cfg.maxJumps < n + 1 ∧ f = .runtimeError id)) ∧
  (∀ (s : State) (why : Refusal), step s ≠ .refused why)

/-- Derived from 10_state.md section 2 (R24, R25, D3): a completed instruction moves the PC to the next index, without
wrapping; every other step leaves the PC. -/
def Obligations.PcAdvancesByOneWithoutWrapping : Prop :=
  (∀ s t : State, s.finished = false → programLength s ≤ 0xFFFF → s.pc.toNat < programLength s → step s = .next t →
    t.pc.toNat = s.pc.toNat + 1 ∧ t.pc.toNat ≤ programLength s) ∧
  (∀ s : State, s.finished = true ∨ programLength s ≤ s.pc.toNat ∨ (request s).status ≠ .ok →
    (request s).state.pc = s.pc)

/-- Rule R76: no descriptor and no step writes program space or another parameter, so a fetch always returns the word
loaded at reset. -/
def Obligations.ProgramSpaceIsImmutable : Prop :=
  (∀ (s : State) (ud : Descriptor), (commit s ud).cfg = s.cfg) ∧
  (∀ (p : RunConfig) (n : Nat),
    (requests n (State.resetWith p)).cfg = p ∧
    fetch (requests n (State.resetWith p)) = p.prog[(requests n (State.resetWith p)).pc.toNat]?)

/-! ### Reset, soundness and whole runs -/

/-- Derived from 10_state.md section 8 and 70_reset_and_hazards.md (R40, R250, R251; flags, PC, `finished` and the
parameters are the spec's choices, D9 and D11; the heap is log 3): reset, from any state, gives every piece of state its
reset value and reports ok. -/
def Obligations.ResetGivesEveryStateItsValue : Prop :=
  ∀ (r : Reply) (p : RunConfig),
    let s := (respond r (.reset p)).state
    (respond r (.reset p)).status = .ok ∧ (∀ i, readReg s i = 0x00#8) ∧ s.pc = p.entry ∧
    s.flags.c = false ∧ s.flags.z = false ∧ s.flags.n = false ∧ s.flags.v = false ∧
    s.flags.s = false ∧ s.flags.h = false ∧ s.flags.t = false ∧ s.flags.i = false ∧ s.sp = p.spReset ∧
    (∀ a, readStack s a = readByte p.stackImage a) ∧ (p.stackImage = [] → ∀ a, readStack s a = 0x00#8) ∧
    s.finished = false ∧ running s = true ∧ (∀ id, guardCount s id = none) ∧
    (∀ a, readHeap s a = none) ∧ s.cfg = p

/-- Derived from 10_state.md sections 3, 4 and 8: the model's invariant holds right after reset, for every legal set of
parameters and for `State.reset`. The bound on N is the spec's own choice (D3, log 8); the canonical forms are the
model's own (log 9), and so is the empty heap at reset (log 3). -/
def Obligations.ResetIsSound : Prop :=
  (∀ p : RunConfig, cfgWf p = true → Sound (State.resetWith p)) ∧ Sound State.reset

/-- Derived from 10_state.md (R28, R35) and 44_commit_and_loop.md section 2 (R202, R204, R207, R209): every step keeps
the model's invariant, from every state that has it. The bound on N (D3, log 8), the guard's details (D8) and the label's
id (D6) are the spec's own choices; the canonical forms of stack, heap and counters are the model's own (log 9). -/
def Obligations.EveryStepKeepsSoundness : Prop :=
  ∀ s t : State, Sound s → step s = .next t → Sound t

/-- Derived from 70_reset_and_hazards.md section 2 (R253, D5): with a valid image no step is Malformed-Instruction, and in
interactive mode every step completes. -/
def Obligations.ValidImageNeverMalformed : Prop :=
  ∀ s : State, validImage s.cfg.prog = true →
    (∀ pc w, step s ≠ .fault (.malformedInstruction pc w)) ∧
    (s.cfg.batch = false → ∃ t, step s = .next t)

/-- Derived from 44_commit_and_loop.md section 2 (R211): from an index below `N` a run is Finished after exactly
`N - pc` steps unless a step reports an error first, and from an index at or beyond `N` after one step; with a valid
image in interactive mode no error comes, so the run completes. The bound on N is the spec's own choice (D3, log 8), and
so are the reserved words (D5). -/
def Obligations.RunEndsAfterTheRemainingProgram : Prop :=
  (∀ (s t : State) (n : Nat), s.finished = false → programLength s ≤ 0xFFFF → s.pc.toNat < programLength s →
    n ≤ programLength s - s.pc.toNat → Host.Core.run Sys2Proof.core n s = .next t →
    t.pc.toNat = s.pc.toNat + n ∧ (t.finished = true ↔ n = programLength s - s.pc.toNat)) ∧
  (∀ s : State, s.finished = false → programLength s ≤ s.pc.toNat → CompletesIn 1 s) ∧
  (∀ s : State, s.finished = false → programLength s ≤ 0xFFFF → s.pc.toNat < programLength s →
    validImage s.cfg.prog = true → s.cfg.batch = false → CompletesIn (programLength s - s.pc.toNat) s)

/-- Derived from 44_commit_and_loop.md section 2 and 43_label.md (R204, R211; D6, D8): a run on a valid image,
of any number of steps, that reports an error is in batch mode and reports the Runtime-Error of a label whose marker
stands in the rest of the program. -/
def Obligations.BatchRunAbortsOnlyAtALabel : Prop :=
  ∀ (s : State) (f : Fault), s.finished = false → programLength s ≤ 0xFFFF → validImage s.cfg.prog = true → Aborts s f →
    s.cfg.batch = true ∧ ∃ (id : LabelId) (w : Word), f = .runtimeError id ∧ w ∈ s.cfg.prog.drop s.pc.toNat ∧
      decode w = .instr (.label id.toNat)
end

