-- ==== Sys2Proof/Laws/Sparse.lean ====
section
/-! SUPPORT. The laws of the sparse maps: reading after writing, and that every memory operation keeps the canonical
form. -/

namespace Sys2Proof.Machine

variable {α : Type}

@[simp] theorem lookup_put_same (k : Nat) (v : α) (m : List (Nat × α)) : lookup k (put k v m) = some v := by
  induction m with
  | nil => simp [put, lookup]
  | cons e m ih =>
    obtain ⟨a, w⟩ := e
    unfold put
    split
    · simp [lookup]
    · split
      · simp [lookup]
      · simp [lookup, *]

theorem lookup_put_ne {j k : Nat} (h : j ≠ k) (v : α) (m : List (Nat × α)) :
    lookup j (put k v m) = lookup j m := by
  induction m with
  | nil => simp [put, lookup, h]
  | cons e m ih =>
    obtain ⟨a, w⟩ := e
    unfold put
    split
    · simp [lookup, h]
    · split
      · rename_i hk; subst hk; simp [lookup, h]
      · simp [lookup, ih]

@[simp] theorem lookup_drop_same (k : Nat) (m : List (Nat × α)) : lookup k (drop k m) = none := by
  induction m with
  | nil => rfl
  | cons e m ih =>
    obtain ⟨a, w⟩ := e
    unfold drop
    split
    · exact ih
    · simp [lookup, *]

theorem lookup_drop_ne {j k : Nat} (h : j ≠ k) (m : List (Nat × α)) : lookup j (drop k m) = lookup j m := by
  induction m with
  | nil => rfl
  | cons e m ih =>
    obtain ⟨a, w⟩ := e
    unfold drop
    split
    · rename_i hk; subst hk; simp [lookup, h, ih]
    · simp [lookup, ih]

/-- Reading a byte where a write went and elsewhere, in every list, canonical or not. -/
theorem readByte_writeByte (m : Memory) (a b : Word) (v : Byte) :
    readByte (writeByte m a v) b = if b = a then v else readByte m b := by
  have hne : b ≠ a → b.toNat ≠ a.toNat := fun h e => h (BitVec.eq_of_toNat_eq e)
  unfold writeByte readByte
  by_cases hb : b = a
  · subst hb
    by_cases hv : v = 0x00#8 <;> simp [hv]
  · by_cases hv : v = 0x00#8
    · simp [hv, hb, lookup_drop_ne (hne hb)]
    · simp [hv, hb, lookup_put_ne (hne hb)]

/-! ### The canonical form -/

theorem rising_iff (m : List (Nat × α)) : rising m = true ↔ m.Pairwise fun x y => x.1 < y.1 := by
  induction m with
  | nil => simp [rising]
  | cons e m ih =>
    obtain ⟨a, w⟩ := e
    cases m with
    | nil => simp [rising]
    | cons e' m =>
      obtain ⟨b, w'⟩ := e'
      rw [rising, Bool.and_eq_true, ih, decide_eq_true_eq, List.pairwise_cons (l := (b, w') :: m)]
      constructor
      · rintro ⟨hab, hp⟩
        refine ⟨?_, hp⟩
        intro y hy
        rcases List.mem_cons.mp hy with rfl | hy
        · exact hab
        · exact hab.trans ((List.pairwise_cons.mp hp).1 y hy)
      · rintro ⟨h, hp⟩
        exact ⟨h (b, w') (by simp), hp⟩

/-- What a put lists: the new entry and old ones. -/
theorem mem_put {k : Nat} {v : α} {m : List (Nat × α)} {e : Nat × α} (h : e ∈ put k v m) :
    e = (k, v) ∨ e ∈ m := by
  induction m with
  | nil => simpa [put] using h
  | cons e' m ih =>
    obtain ⟨a, w⟩ := e'
    unfold put at h
    split at h
    · exact List.mem_cons.mp h
    · split at h
      · rcases List.mem_cons.mp h with rfl | h <;> simp_all
      · rcases List.mem_cons.mp h with rfl | h
        · simp
        · rcases ih h with h | h <;> simp_all

theorem mem_drop {k : Nat} {m : List (Nat × α)} {e : Nat × α} (h : e ∈ drop k m) : e ∈ m := by
  induction m with
  | nil => cases h
  | cons e' m ih =>
    obtain ⟨a, w⟩ := e'
    unfold drop at h
    split at h
    · exact List.mem_cons_of_mem _ (ih h)
    · rcases List.mem_cons.mp h with rfl | h
      · simp
      · exact List.mem_cons_of_mem _ (ih h)

theorem rising_put (k : Nat) (v : α) {m : List (Nat × α)} (h : rising m = true) : rising (put k v m) = true := by
  rw [rising_iff] at h ⊢
  induction m with
  | nil => simp [put]
  | cons e m ih =>
    obtain ⟨a, w⟩ := e
    obtain ⟨ha, hm⟩ := List.pairwise_cons.mp h
    unfold put
    split
    · rename_i hk
      refine List.pairwise_cons.mpr ⟨?_, h⟩
      intro y hy
      rcases List.mem_cons.mp hy with rfl | hy
      · exact hk
      · exact hk.trans (ha y hy)
    · split
      · rename_i hk
        subst hk
        exact List.pairwise_cons.mpr ⟨ha, hm⟩
      · refine List.pairwise_cons.mpr ⟨?_, ih hm⟩
        intro y hy
        rcases mem_put hy with rfl | hy
        · simp; omega
        · exact ha y hy

theorem rising_drop (k : Nat) {m : List (Nat × α)} (h : rising m = true) : rising (drop k m) = true := by
  rw [rising_iff] at h ⊢
  induction m with
  | nil => simp [drop]
  | cons e m ih =>
    obtain ⟨a, w⟩ := e
    obtain ⟨ha, hm⟩ := List.pairwise_cons.mp h
    unfold drop
    split
    · exact ih hm
    · exact List.pairwise_cons.mpr ⟨fun y hy => ha y (mem_drop hy), ih hm⟩

/-- Every write of a byte keeps the memory's canonical form. -/
theorem writeByte_wf {m : Memory} (h : Memory.wf m = true) (a : Word) (v : Byte) :
    Memory.wf (writeByte m a v) = true := by
  simp only [Memory.wf, Bool.and_eq_true, List.all_eq_true, decide_eq_true_eq] at h ⊢
  obtain ⟨hr, hall⟩ := h
  unfold writeByte
  split
  · exact ⟨rising_drop _ hr, fun e he => hall e (mem_drop he)⟩
  · rename_i hv
    refine ⟨rising_put _ _ hr, fun e he => ?_⟩
    rcases mem_put he with rfl | he
    · exact ⟨a.isLt, hv⟩
    · exact hall e he

theorem writeStack_wf {s : State} (h : Memory.wf s.stack = true) (a : Word) (v : Byte) :
    Memory.wf (writeStack s a v).stack = true := writeByte_wf h a v

theorem writeStackLong_wf {s : State} (h : Memory.wf s.stack = true) (a v : Word) :
    Memory.wf (writeStackLong s a v).stack = true := writeByte_wf (writeByte_wf h _ _) _ _

/-- Setting a loop-guard counter keeps the counters' canonical form. -/
theorem setGuard_wf {s : State} (h : guardWf s.guard = true) (id : LabelId) (n : Nat) :
    guardWf (setGuard s id n).guard = true := by
  simp only [guardWf, setGuard, Bool.and_eq_true, List.all_eq_true, decide_eq_true_eq] at h ⊢
  refine ⟨rising_put _ _ h.1, fun e he => ?_⟩
  rcases mem_put he with rfl | he
  · exact id.isLt
  · exact h.2 e he

/-- The memory of the reset state has the canonical form. -/
theorem reset_stack_wf : Memory.wf State.reset.stack = true := by decide

end Sys2Proof.Machine
end

