-- ==== Sys2Proof/Laws/State.lean ====
section
/-! SUPPORT. What each update of State does to each field, so that no proof unfolds a record update. -/

namespace Sys2Proof.Machine

/-! `writeStack` -/

@[simp] theorem writeStack_regs (s : State) (a : Word) (v : Byte) : (writeStack s a v).regs = s.regs := rfl
@[simp] theorem writeStack_pc (s : State) (a : Word) (v : Byte) : (writeStack s a v).pc = s.pc := rfl
@[simp] theorem writeStack_flags (s : State) (a : Word) (v : Byte) : (writeStack s a v).flags = s.flags := rfl
@[simp] theorem writeStack_sp (s : State) (a : Word) (v : Byte) : (writeStack s a v).sp = s.sp := rfl
@[simp] theorem writeStack_stack (s : State) (a : Word) (v : Byte) : (writeStack s a v).stack = writeByte s.stack a v := rfl
@[simp] theorem writeStack_heap (s : State) (a : Word) (v : Byte) : (writeStack s a v).heap = s.heap := rfl
@[simp] theorem writeStack_finished (s : State) (a : Word) (v : Byte) : (writeStack s a v).finished = s.finished := rfl
@[simp] theorem writeStack_guard (s : State) (a : Word) (v : Byte) : (writeStack s a v).guard = s.guard := rfl
@[simp] theorem writeStack_cfg (s : State) (a : Word) (v : Byte) : (writeStack s a v).cfg = s.cfg := rfl

/-! `writeStackLong` -/

@[simp] theorem writeStackLong_regs (s : State) (a v : Word) : (writeStackLong s a v).regs = s.regs := by
  simp [writeStackLong]
@[simp] theorem writeStackLong_pc (s : State) (a v : Word) : (writeStackLong s a v).pc = s.pc := by
  simp [writeStackLong]
@[simp] theorem writeStackLong_flags (s : State) (a v : Word) : (writeStackLong s a v).flags = s.flags := by
  simp [writeStackLong]
@[simp] theorem writeStackLong_sp (s : State) (a v : Word) : (writeStackLong s a v).sp = s.sp := by
  simp [writeStackLong]
@[simp] theorem writeStackLong_stack (s : State) (a v : Word) : (writeStackLong s a v).stack = writeByte (writeByte s.stack a (v.extractLsb' 8 8)) (a + 1#16) (v.extractLsb' 0 8) := by
  simp [writeStackLong]
@[simp] theorem writeStackLong_heap (s : State) (a v : Word) : (writeStackLong s a v).heap = s.heap := by
  simp [writeStackLong]
@[simp] theorem writeStackLong_finished (s : State) (a v : Word) : (writeStackLong s a v).finished = s.finished := by
  simp [writeStackLong]
@[simp] theorem writeStackLong_guard (s : State) (a v : Word) : (writeStackLong s a v).guard = s.guard := by
  simp [writeStackLong]
@[simp] theorem writeStackLong_cfg (s : State) (a v : Word) : (writeStackLong s a v).cfg = s.cfg := by
  simp [writeStackLong]

/-! `commitRegs` -/

@[simp] theorem commitRegs_regs (ud : Descriptor) (s : State) : (commitRegs ud s).regs = mergeRegs s.regs ud.regs := by
  simp only [commitRegs]
@[simp] theorem commitRegs_pc (ud : Descriptor) (s : State) : (commitRegs ud s).pc = s.pc := by
  simp only [commitRegs]
@[simp] theorem commitRegs_flags (ud : Descriptor) (s : State) : (commitRegs ud s).flags = s.flags := by
  simp only [commitRegs]
@[simp] theorem commitRegs_sp (ud : Descriptor) (s : State) : (commitRegs ud s).sp = s.sp := by
  simp only [commitRegs]
@[simp] theorem commitRegs_stack (ud : Descriptor) (s : State) : (commitRegs ud s).stack = s.stack := by
  simp only [commitRegs]
@[simp] theorem commitRegs_heap (ud : Descriptor) (s : State) : (commitRegs ud s).heap = s.heap := by
  simp only [commitRegs]
@[simp] theorem commitRegs_finished (ud : Descriptor) (s : State) : (commitRegs ud s).finished = s.finished := by
  simp only [commitRegs]
@[simp] theorem commitRegs_guard (ud : Descriptor) (s : State) : (commitRegs ud s).guard = s.guard := by
  simp only [commitRegs]
@[simp] theorem commitRegs_cfg (ud : Descriptor) (s : State) : (commitRegs ud s).cfg = s.cfg := by
  simp only [commitRegs]

/-! `commitSp` -/

@[simp] theorem commitSp_regs (ud : Descriptor) (s : State) : (commitSp ud s).regs = s.regs := rfl
@[simp] theorem commitSp_pc (ud : Descriptor) (s : State) : (commitSp ud s).pc = s.pc := rfl
@[simp] theorem commitSp_flags (ud : Descriptor) (s : State) : (commitSp ud s).flags = s.flags := rfl
@[simp] theorem commitSp_sp (ud : Descriptor) (s : State) : (commitSp ud s).sp = ud.sp.getD s.sp := rfl
@[simp] theorem commitSp_stack (ud : Descriptor) (s : State) : (commitSp ud s).stack = s.stack := rfl
@[simp] theorem commitSp_heap (ud : Descriptor) (s : State) : (commitSp ud s).heap = s.heap := rfl
@[simp] theorem commitSp_finished (ud : Descriptor) (s : State) : (commitSp ud s).finished = s.finished := rfl
@[simp] theorem commitSp_guard (ud : Descriptor) (s : State) : (commitSp ud s).guard = s.guard := rfl
@[simp] theorem commitSp_cfg (ud : Descriptor) (s : State) : (commitSp ud s).cfg = s.cfg := rfl

/-! `commitFlags` -/

@[simp] theorem commitFlags_regs (ud : Descriptor) (s : State) : (commitFlags ud s).regs = s.regs := rfl
@[simp] theorem commitFlags_pc (ud : Descriptor) (s : State) : (commitFlags ud s).pc = s.pc := rfl
@[simp] theorem commitFlags_flags (ud : Descriptor) (s : State) : (commitFlags ud s).flags = ud.flags.getD s.flags := rfl
@[simp] theorem commitFlags_sp (ud : Descriptor) (s : State) : (commitFlags ud s).sp = s.sp := rfl
@[simp] theorem commitFlags_stack (ud : Descriptor) (s : State) : (commitFlags ud s).stack = s.stack := rfl
@[simp] theorem commitFlags_heap (ud : Descriptor) (s : State) : (commitFlags ud s).heap = s.heap := rfl
@[simp] theorem commitFlags_finished (ud : Descriptor) (s : State) : (commitFlags ud s).finished = s.finished := rfl
@[simp] theorem commitFlags_guard (ud : Descriptor) (s : State) : (commitFlags ud s).guard = s.guard := rfl
@[simp] theorem commitFlags_cfg (ud : Descriptor) (s : State) : (commitFlags ud s).cfg = s.cfg := rfl

/-! `commitPc` -/

@[simp] theorem commitPc_regs (ud : Descriptor) (s : State) : (commitPc ud s).regs = s.regs := rfl
@[simp] theorem commitPc_pc (ud : Descriptor) (s : State) : (commitPc ud s).pc = ud.pc := rfl
@[simp] theorem commitPc_flags (ud : Descriptor) (s : State) : (commitPc ud s).flags = s.flags := rfl
@[simp] theorem commitPc_sp (ud : Descriptor) (s : State) : (commitPc ud s).sp = s.sp := rfl
@[simp] theorem commitPc_stack (ud : Descriptor) (s : State) : (commitPc ud s).stack = s.stack := rfl
@[simp] theorem commitPc_heap (ud : Descriptor) (s : State) : (commitPc ud s).heap = s.heap := rfl
@[simp] theorem commitPc_finished (ud : Descriptor) (s : State) : (commitPc ud s).finished = s.finished := rfl
@[simp] theorem commitPc_guard (ud : Descriptor) (s : State) : (commitPc ud s).guard = s.guard := rfl
@[simp] theorem commitPc_cfg (ud : Descriptor) (s : State) : (commitPc ud s).cfg = s.cfg := rfl

/-! `setGuard` -/

@[simp] theorem setGuard_regs (s : State) (id : LabelId) (n : Nat) : (setGuard s id n).regs = s.regs := rfl
@[simp] theorem setGuard_pc (s : State) (id : LabelId) (n : Nat) : (setGuard s id n).pc = s.pc := rfl
@[simp] theorem setGuard_flags (s : State) (id : LabelId) (n : Nat) : (setGuard s id n).flags = s.flags := rfl
@[simp] theorem setGuard_sp (s : State) (id : LabelId) (n : Nat) : (setGuard s id n).sp = s.sp := rfl
@[simp] theorem setGuard_stack (s : State) (id : LabelId) (n : Nat) : (setGuard s id n).stack = s.stack := rfl
@[simp] theorem setGuard_heap (s : State) (id : LabelId) (n : Nat) : (setGuard s id n).heap = s.heap := rfl
@[simp] theorem setGuard_finished (s : State) (id : LabelId) (n : Nat) : (setGuard s id n).finished = s.finished := rfl
@[simp] theorem setGuard_guard (s : State) (id : LabelId) (n : Nat) : (setGuard s id n).guard = put id.toNat n s.guard := rfl
@[simp] theorem setGuard_cfg (s : State) (id : LabelId) (n : Nat) : (setGuard s id n).cfg = s.cfg := rfl

/-! `finish` -/

@[simp] theorem finish_regs (s : State) : (finish s).regs = s.regs := rfl
@[simp] theorem finish_pc (s : State) : (finish s).pc = s.pc := rfl
@[simp] theorem finish_flags (s : State) : (finish s).flags = s.flags := rfl
@[simp] theorem finish_sp (s : State) : (finish s).sp = s.sp := rfl
@[simp] theorem finish_stack (s : State) : (finish s).stack = s.stack := rfl
@[simp] theorem finish_heap (s : State) : (finish s).heap = s.heap := rfl
@[simp] theorem finish_finished (s : State) : (finish s).finished = true := rfl
@[simp] theorem finish_guard (s : State) : (finish s).guard = s.guard := rfl
@[simp] theorem finish_cfg (s : State) : (finish s).cfg = s.cfg := rfl

/-! `commitMem`: every field but the stack -/

@[simp] theorem commitMem_regs (ud : Descriptor) (s : State) : (commitMem ud s).regs = s.regs := by
  unfold commitMem; split <;> rfl
@[simp] theorem commitMem_pc (ud : Descriptor) (s : State) : (commitMem ud s).pc = s.pc := by
  unfold commitMem; split <;> rfl
@[simp] theorem commitMem_flags (ud : Descriptor) (s : State) : (commitMem ud s).flags = s.flags := by
  unfold commitMem; split <;> rfl
@[simp] theorem commitMem_sp (ud : Descriptor) (s : State) : (commitMem ud s).sp = s.sp := by
  unfold commitMem; split <;> rfl
@[simp] theorem commitMem_heap (ud : Descriptor) (s : State) : (commitMem ud s).heap = s.heap := by
  unfold commitMem; split <;> rfl
@[simp] theorem commitMem_finished (ud : Descriptor) (s : State) : (commitMem ud s).finished = s.finished := by
  unfold commitMem; split <;> rfl
@[simp] theorem commitMem_guard (ud : Descriptor) (s : State) : (commitMem ud s).guard = s.guard := by
  unfold commitMem; split <;> rfl
@[simp] theorem commitMem_cfg (ud : Descriptor) (s : State) : (commitMem ud s).cfg = s.cfg := by
  unfold commitMem; split <;> rfl

/-! `commitLong`: every field but the stack -/

@[simp] theorem commitLong_regs (ud : Descriptor) (s : State) : (commitLong ud s).regs = s.regs := by
  unfold commitLong; split <;> rfl
@[simp] theorem commitLong_pc (ud : Descriptor) (s : State) : (commitLong ud s).pc = s.pc := by
  unfold commitLong; split <;> rfl
@[simp] theorem commitLong_flags (ud : Descriptor) (s : State) : (commitLong ud s).flags = s.flags := by
  unfold commitLong; split <;> rfl
@[simp] theorem commitLong_sp (ud : Descriptor) (s : State) : (commitLong ud s).sp = s.sp := by
  unfold commitLong; split <;> rfl
@[simp] theorem commitLong_heap (ud : Descriptor) (s : State) : (commitLong ud s).heap = s.heap := by
  unfold commitLong; split <;> rfl
@[simp] theorem commitLong_finished (ud : Descriptor) (s : State) : (commitLong ud s).finished = s.finished := by
  unfold commitLong; split <;> rfl
@[simp] theorem commitLong_guard (ud : Descriptor) (s : State) : (commitLong ud s).guard = s.guard := by
  unfold commitLong; split <;> rfl
@[simp] theorem commitLong_cfg (ud : Descriptor) (s : State) : (commitLong ud s).cfg = s.cfg := by
  unfold commitLong; split <;> rfl

/-! `terminationCheck`: every field but the termination flag -/

@[simp] theorem terminationCheck_regs (s : State) : (terminationCheck s).regs = s.regs := by
  unfold terminationCheck; split <;> rfl
@[simp] theorem terminationCheck_pc (s : State) : (terminationCheck s).pc = s.pc := by
  unfold terminationCheck; split <;> rfl
@[simp] theorem terminationCheck_flags (s : State) : (terminationCheck s).flags = s.flags := by
  unfold terminationCheck; split <;> rfl
@[simp] theorem terminationCheck_sp (s : State) : (terminationCheck s).sp = s.sp := by
  unfold terminationCheck; split <;> rfl
@[simp] theorem terminationCheck_stack (s : State) : (terminationCheck s).stack = s.stack := by
  unfold terminationCheck; split <;> rfl
@[simp] theorem terminationCheck_heap (s : State) : (terminationCheck s).heap = s.heap := by
  unfold terminationCheck; split <;> rfl
@[simp] theorem terminationCheck_guard (s : State) : (terminationCheck s).guard = s.guard := by
  unfold terminationCheck; split <;> rfl
@[simp] theorem terminationCheck_cfg (s : State) : (terminationCheck s).cfg = s.cfg := by
  unfold terminationCheck; split <;> rfl

/-- The termination check sets the flag where the PC is at the end, and never clears it. -/
@[simp] theorem terminationCheck_finished (s : State) :
    (terminationCheck s).finished = (atEnd s || s.finished) := by
  unfold terminationCheck; split <;> simp_all

/-! `State.resetWith` -/

@[simp] theorem resetWith_pc (p : RunConfig) : (State.resetWith p).pc = p.entry := rfl
@[simp] theorem resetWith_flags (p : RunConfig) : (State.resetWith p).flags = Flags.clear := rfl
@[simp] theorem resetWith_sp (p : RunConfig) : (State.resetWith p).sp = p.spReset := rfl
@[simp] theorem resetWith_stack (p : RunConfig) : (State.resetWith p).stack = p.stackImage := rfl
@[simp] theorem resetWith_heap (p : RunConfig) : (State.resetWith p).heap = [] := rfl
@[simp] theorem resetWith_finished (p : RunConfig) : (State.resetWith p).finished = false := rfl
@[simp] theorem resetWith_guard (p : RunConfig) : (State.resetWith p).guard = [] := rfl
@[simp] theorem resetWith_cfg (p : RunConfig) : (State.resetWith p).cfg = p := rfl

end Sys2Proof.Machine
end

