-- ==== Sys2Proof/Laws/Commit.lean ====
section
/-! SUPPORT. What commit does to each part of the state, said once (44_commit_and_loop.md R192 to R199). -/

namespace Sys2Proof.Machine

@[simp] theorem commit_pc (s : State) (ud : Descriptor) : (commit s ud).pc = ud.pc := rfl

@[simp] theorem commit_flags (s : State) (ud : Descriptor) : (commit s ud).flags = ud.flags.getD s.flags := by
  simp [commit]

@[simp] theorem commit_sp (s : State) (ud : Descriptor) : (commit s ud).sp = ud.sp.getD s.sp := by simp [commit]

@[simp] theorem commit_regs (s : State) (ud : Descriptor) :
    (commit s ud).regs = mergeRegs s.regs ud.regs := by simp [commit]

@[simp] theorem commit_heap (s : State) (ud : Descriptor) : (commit s ud).heap = s.heap := by simp [commit]

@[simp] theorem commit_finished (s : State) (ud : Descriptor) : (commit s ud).finished = s.finished := by simp [commit]

@[simp] theorem commit_guard (s : State) (ud : Descriptor) : (commit s ud).guard = s.guard := by simp [commit]

@[simp] theorem commit_cfg (s : State) (ud : Descriptor) : (commit s ud).cfg = s.cfg := by simp [commit]

/-- The stack after commit: the single write, then the long write. -/
theorem commit_stack (s : State) (ud : Descriptor) :
    (commit s ud).stack = (commitLong ud (commitMem ud s)).stack := by
  simp only [commit, commitPc_stack]
  unfold commitLong
  cases ud.long <;> unfold commitMem <;> cases ud.mem <;> simp

/-- Without a memory write the stack is untouched. -/
theorem commit_stack_of_no_write {s : State} {ud : Descriptor} (hm : ud.mem = none) (hl : ud.long = none) :
    (commit s ud).stack = s.stack := by
  rw [commit_stack]; simp [commitLong, commitMem, hm, hl]

/-- Commit keeps the stack's canonical form, whatever the descriptor writes. -/
theorem commit_stack_wf {s : State} (ud : Descriptor) (h : Memory.wf s.stack = true) :
    Memory.wf (commit s ud).stack = true := by
  rw [commit_stack]
  have hm : Memory.wf (commitMem ud s).stack = true := by
    unfold commitMem; split
    · exact writeStack_wf h _ _
    · exact h
  unfold commitLong; split
  · exact writeStackLong_wf hm _ _
  · exact hm

/-- Two states are equal when every field is. -/
theorem State.ext_fields {s t : State} (h1 : s.regs = t.regs) (h2 : s.pc = t.pc) (h3 : s.flags = t.flags)
    (h4 : s.sp = t.sp) (h5 : s.stack = t.stack) (h6 : s.heap = t.heap) (h7 : s.finished = t.finished)
    (h8 : s.guard = t.guard) (h9 : s.cfg = t.cfg) : s = t := by
  cases s; cases t; simp_all

@[simp] theorem noRegWrites_get (i : Nat) (hi : i < 32) : noRegWrites[i] = none := by simp [noRegWrites]

theorem oneRegWrite_get (d : Reg) (v : Byte) (i : Nat) (hi : i < 32) :
    (oneRegWrite d v)[i] = if d.val = i then some v else none := by
  simp [oneRegWrite, Vector.getElem_set]

/-- One register after a set of register writes: the value it was named with, or the one it had. -/
@[simp] theorem mergeRegs_get (x : Vector Byte 32) (u : Vector (Option Byte) 32) (i : Nat) (hi : i < 32) :
    (mergeRegs x u)[i] = (u[i]).getD x[i] := by simp [mergeRegs]

theorem mergeRegs_noRegWrites (x : Vector Byte 32) : mergeRegs x noRegWrites = x :=
  Vector.ext fun i hi => by simp

theorem mergeRegs_oneRegWrite (x : Vector Byte 32) (d : Reg) (v : Byte) :
    mergeRegs x (oneRegWrite d v) = x.set d v := by
  refine Vector.ext fun i hi => ?_
  rw [mergeRegs_get, oneRegWrite_get, Vector.getElem_set]
  split <;> rfl

end Sys2Proof.Machine
end

