-- ==== Sys2Proof/Laws/Operands.lean ====
section
/-! SUPPORT. What the operand forms answer: on operands in range, and out of it. -/

namespace Sys2Proof.Machine

@[simp] theorem generalReg?_val (d : Reg) : generalReg? (d.val : Int) = some d := by
  have := d.isLt
  unfold generalReg?
  rw [dif_pos (by omega)]
  simp

theorem upperReg?_val {d : Reg} (h : 16 ≤ d.val) : upperReg? (d.val : Int) = some d := by
  have := d.isLt
  unfold upperReg?
  rw [dif_pos (by omega)]
  simp

@[simp] theorem immediate?_toNat (k : Byte) : immediate? (k.toNat : Int) = some k := by
  have := k.isLt
  unfold immediate?
  rw [if_pos (by omega)]
  simp [BitVec.ofInt_natCast]

@[simp] theorem labelId?_toNat (id : LabelId) : labelId? (id.toNat : Int) = some id := immediate?_toNat id

theorem generalReg?_isSome (n : Int) : (generalReg? n).isSome = isGeneralReg n := by
  unfold generalReg? isGeneralReg
  split <;> simp_all

theorem upperReg?_isSome (n : Int) : (upperReg? n).isSome = isUpperReg n := by
  unfold upperReg? isUpperReg
  split <;> simp_all

theorem immediate?_isSome (n : Int) : (immediate? n).isSome = isImmediate n := by
  unfold immediate? isImmediate
  split <;> simp_all

theorem labelId?_isSome (n : Int) : (labelId? n).isSome = isLabelId n := immediate?_isSome n

/-- An operand the form accepts is the register's own number. -/
theorem generalReg?_eq_some {n : Int} {d : Reg} (h : generalReg? n = some d) : n = d.val := by
  unfold generalReg? at h
  split at h
  · cases h; simp; omega
  · cases h

theorem upperReg?_eq_some {n : Int} {d : Reg} (h : upperReg? n = some d) : n = d.val ∧ 16 ≤ d.val := by
  unfold upperReg? at h
  split at h
  · cases h; simp; omega
  · cases h

theorem immediate?_eq_some {n : Int} {k : Byte} (h : immediate? n = some k) : n = k.toNat := by
  unfold immediate? at h
  split at h
  · cases h
    rename_i hn
    obtain ⟨m, rfl⟩ := Int.eq_ofNat_of_zero_le hn.1
    simp [BitVec.ofInt_natCast]; omega
  · cases h

theorem labelId?_eq_some {n : Int} {id : LabelId} (h : labelId? n = some id) : n = id.toNat := immediate?_eq_some h

end Sys2Proof.Machine
end

