-- ==== Sys2Proof/Laws/Decode.lean ====
section
/-! SUPPORT. Facts about the decoder that other lemmas cite. -/

namespace Sys2Proof.Machine

/-- The bits of `d` in format `RR`. -/
theorem rrDest_getLsbD (w : Word) (k : Nat) :
    (rrDest w).getLsbD k = if k < 4 then w.getLsbD (4 + k) else decide (k = 4) && w.getLsbD 8 := by
  refine (BitVec.getLsbD_append (x := bitsAt w 8 1) (y := bitsAt w 4 4)).trans ?_
  by_cases h : k < 4
  · simp [h, bitsAt]
  · by_cases h4 : k = 4
    · subst h4; simp [bitsAt]
    · simp [h, h4, bitsAt]; omega

/-- The bits of `r` in format `RR`. -/
theorem rrSource_getLsbD (w : Word) (k : Nat) :
    (rrSource w).getLsbD k = if k < 4 then w.getLsbD k else decide (k = 4) && w.getLsbD 9 := by
  refine (BitVec.getLsbD_append (x := bitsAt w 9 1) (y := bitsAt w 0 4)).trans ?_
  by_cases h : k < 4
  · simp [h, bitsAt]
  · by_cases h4 : k = 4
    · subst h4; simp [bitsAt]
    · simp [h, h4, bitsAt]; omega

/-- The bits of `k` in format `RI`. -/
theorem riImmediate_getLsbD (w : Word) (k : Nat) :
    (riImmediate w).getLsbD k = if k < 4 then w.getLsbD k else decide (k < 8) && w.getLsbD (4 + k) := by
  refine (BitVec.getLsbD_append (x := bitsAt w 8 4) (y := bitsAt w 0 4)).trans ?_
  by_cases h : k < 4
  · simp [h, bitsAt]
  · have e : 8 + (k - 4) = 4 + k := by omega
    have e' : k - 4 < 4 ↔ k < 8 := by omega
    simp [h, bitsAt, e, e']

/-- The bits of `id` in format `L`. -/
theorem labelField_getLsbD (w : Word) (k : Nat) :
    (labelField w).getLsbD k = (decide (k < 8) && w.getLsbD k) := by simp [labelField, bitsAt]

/-- The decoder's answer on each of the four patterns, and on every other word. -/
theorem decode_cases (w : Word) :
    (bitsAt w 8 8 = 0x00#8 ∧ decode w = .instr (.label (labelField w).toNat)) ∨
    (bitsAt w 10 6 = 0b000001#6 ∧ decode w = .instr (.cpc (rrDest w).toNat (rrSource w).toNat)) ∨
    (bitsAt w 10 6 = 0b000010#6 ∧ decode w = .instr (.sbc (rrDest w).toNat (rrSource w).toNat)) ∨
    (bitsAt w 12 4 = 0b1110#4 ∧ decode w = .instr (.ldi (riDest w) (riImmediate w).toNat)) ∨
    (bitsAt w 8 8 ≠ 0x00#8 ∧ bitsAt w 10 6 ≠ 0b000001#6 ∧ bitsAt w 10 6 ≠ 0b000010#6 ∧ bitsAt w 12 4 ≠ 0b1110#4 ∧
      decode w = .reserved) := by
  unfold decode
  split
  · exact .inl ⟨‹_›, rfl⟩
  · split
    · exact .inr (.inl ⟨‹_›, rfl⟩)
    · split
      · exact .inr (.inr (.inl ⟨‹_›, rfl⟩))
      · split
        · exact .inr (.inr (.inr (.inl ⟨‹_›, rfl⟩)))
        · exact .inr (.inr (.inr (.inr ⟨‹_›, ‹_›, ‹_›, ‹_›, rfl⟩)))

/-- No two rows of the opcode map fit one word (R99: "the four patterns are disjoint"). -/
theorem opcodeTable_disjoint :
    opcodeTable.Pairwise fun a b => a.pattern &&& b.mask ≠ b.pattern &&& a.mask := by decide

/-- Each row's pattern lies inside its mask. -/
theorem opcodeTable_patterns : ∀ row ∈ opcodeTable, row.fits row.pattern = true := by decide

end Sys2Proof.Machine
end

