-- ==== Sys2Proof/Laws/Exec.lean ====
section
/-! SUPPORT. The meanings in terms of the descriptors they commit, and the one inversion lemma of exec. -/

namespace Sys2Proof.Machine

/-- A completed execute stage: the next state is the commit of its descriptor. -/
theorem complete_eq_next {s t : State} {e : Execution} (h : complete s e = .next t) :
    ∃ ud, e = .ok ud ∧ t = commit s ud := by
  cases e with
  | ok ud => exact ⟨ud, rfl, by simpa [complete, eq_comm] using h⟩
  | error f => simp [complete] at h

theorem execCpc_reg (d r : Reg) (s : State) :
    execCpc d.val r.val s = .next (commit s (cpcDescriptor d r s)) := by
  simp [execCpc, runCpc, complete]

theorem execSbc_reg (d r : Reg) (s : State) :
    execSbc d.val r.val s = .next (commit s (sbcDescriptor d r s)) := by
  simp [execSbc, runSbc, complete]

theorem execLdi_reg {d : Reg} (hd : 16 ≤ d.val) (k : Byte) (s : State) :
    execLdi d.val k.toNat s = .next (commit s (ldiDescriptor d k s)) := by
  simp [execLdi, runLdi, complete, upperReg?_val hd]

theorem execLabel_id (id : LabelId) (s : State) :
    execLabel id.toNat s = .next (commit s (onlyPc (nextPc s))) := by
  simp [execLabel, runLabel, complete]

/-- Everything an instruction can do when it completes: its operands are in range and it commits its descriptor. -/
theorem exec_cases {i : Instr} {s t : State} (h : exec i s = .next t) :
    (∃ id : LabelId, i = .label id.toNat ∧ t = commit s (onlyPc (nextPc s))) ∨
    (∃ d r : Reg, i = .cpc d.val r.val ∧ t = commit s (cpcDescriptor d r s)) ∨
    (∃ d r : Reg, i = .sbc d.val r.val ∧ t = commit s (sbcDescriptor d r s)) ∨
    (∃ (d : Reg) (k : Byte), 16 ≤ d.val ∧ i = .ldi d.val k.toNat ∧ t = commit s (ldiDescriptor d k s)) := by
  cases i with
  | label id =>
    obtain ⟨ud, he, rfl⟩ := complete_eq_next h
    unfold runLabel at he
    split at he
    · rename_i i hi
      cases he
      exact .inl ⟨i, by rw [labelId?_eq_some hi], rfl⟩
    · cases he
  | cpc d r =>
    obtain ⟨ud, he, rfl⟩ := complete_eq_next h
    unfold runCpc at he
    split at he
    · rename_i a b ha hb
      cases he
      exact .inr (.inl ⟨a, b, by rw [generalReg?_eq_some ha, generalReg?_eq_some hb], rfl⟩)
    · cases he
    · cases he
  | sbc d r =>
    obtain ⟨ud, he, rfl⟩ := complete_eq_next h
    unfold runSbc at he
    split at he
    · rename_i a b ha hb
      cases he
      exact .inr (.inr (.inl ⟨a, b, by rw [generalReg?_eq_some ha, generalReg?_eq_some hb], rfl⟩))
    · cases he
    · cases he
  | ldi d k =>
    obtain ⟨ud, he, rfl⟩ := complete_eq_next h
    unfold runLdi at he
    split at he
    · rename_i a b ha hb
      cases he
      obtain ⟨hd, h16⟩ := upperReg?_eq_some ha
      exact .inr (.inr (.inr ⟨a, b, h16, by rw [hd, immediate?_eq_some hb], rfl⟩))
    · cases he
    · cases he

/-- No instruction is refused: every arm of exec has its meaning. -/
theorem exec_ne_refused (i : Instr) (s : State) (why : Refusal) : exec i s ≠ .refused why := by
  intro h
  have hc : ∀ e : Execution, complete s e ≠ .refused why := by
    intro e he; cases e <;> simp [complete] at he
  cases i <;> exact hc _ h

/-! ### Each descriptor's fields -/

@[simp] theorem onlyPc_regs (t : Word) : (onlyPc t).regs = noRegWrites := rfl
@[simp] theorem onlyPc_mem (t : Word) : (onlyPc t).mem = none := rfl
@[simp] theorem onlyPc_long (t : Word) : (onlyPc t).long = none := rfl
@[simp] theorem onlyPc_sp (t : Word) : (onlyPc t).sp = none := rfl
@[simp] theorem onlyPc_flags (t : Word) : (onlyPc t).flags = none := rfl
@[simp] theorem onlyPc_pc (t : Word) : (onlyPc t).pc = t := rfl

@[simp] theorem cpcDescriptor_regs (d r : Reg) (s : State) : (cpcDescriptor d r s).regs = noRegWrites := rfl
@[simp] theorem cpcDescriptor_mem (d r : Reg) (s : State) : (cpcDescriptor d r s).mem = none := rfl
@[simp] theorem cpcDescriptor_long (d r : Reg) (s : State) : (cpcDescriptor d r s).long = none := rfl
@[simp] theorem cpcDescriptor_sp (d r : Reg) (s : State) : (cpcDescriptor d r s).sp = none := rfl
@[simp] theorem cpcDescriptor_pc (d r : Reg) (s : State) : (cpcDescriptor d r s).pc = nextPc s := rfl
theorem cpcDescriptor_flags (d r : Reg) (s : State) : (cpcDescriptor d r s).flags =
    some (subFlags s.cfg.mag (readReg s d) (readReg s r) false s.flags).2 := rfl

@[simp] theorem sbcDescriptor_mem (d r : Reg) (s : State) : (sbcDescriptor d r s).mem = none := rfl
@[simp] theorem sbcDescriptor_long (d r : Reg) (s : State) : (sbcDescriptor d r s).long = none := rfl
@[simp] theorem sbcDescriptor_sp (d r : Reg) (s : State) : (sbcDescriptor d r s).sp = none := rfl
@[simp] theorem sbcDescriptor_pc (d r : Reg) (s : State) : (sbcDescriptor d r s).pc = nextPc s := rfl
theorem sbcDescriptor_regs (d r : Reg) (s : State) : (sbcDescriptor d r s).regs =
    oneRegWrite d (subFlags s.cfg.mag (readReg s d) (readReg s r) s.flags.c s.flags).1 := rfl
theorem sbcDescriptor_flags (d r : Reg) (s : State) : (sbcDescriptor d r s).flags =
    some (subFlags s.cfg.mag (readReg s d) (readReg s r) s.flags.c s.flags).2 := rfl

@[simp] theorem ldiDescriptor_mem (d : Reg) (k : Byte) (s : State) : (ldiDescriptor d k s).mem = none := rfl
@[simp] theorem ldiDescriptor_long (d : Reg) (k : Byte) (s : State) : (ldiDescriptor d k s).long = none := rfl
@[simp] theorem ldiDescriptor_sp (d : Reg) (k : Byte) (s : State) : (ldiDescriptor d k s).sp = none := rfl
@[simp] theorem ldiDescriptor_flags (d : Reg) (k : Byte) (s : State) : (ldiDescriptor d k s).flags = none := rfl
@[simp] theorem ldiDescriptor_pc (d : Reg) (k : Byte) (s : State) : (ldiDescriptor d k s).pc = nextPc s := rfl
theorem ldiDescriptor_regs (d : Reg) (k : Byte) (s : State) : (ldiDescriptor d k s).regs = oneRegWrite d k := rfl

/-! ### No instruction of the core writes memory -/

@[simp] theorem commit_onlyPc_stack (s : State) (t : Word) : (commit s (onlyPc t)).stack = s.stack :=
  commit_stack_of_no_write rfl rfl
@[simp] theorem commit_cpc_stack (s u : State) (d r : Reg) : (commit s (cpcDescriptor d r u)).stack = s.stack :=
  commit_stack_of_no_write rfl rfl
@[simp] theorem commit_sbc_stack (s u : State) (d r : Reg) : (commit s (sbcDescriptor d r u)).stack = s.stack :=
  commit_stack_of_no_write rfl rfl
@[simp] theorem commit_ldi_stack (s u : State) (d : Reg) (k : Byte) :
    (commit s (ldiDescriptor d k u)).stack = s.stack :=
  commit_stack_of_no_write rfl rfl

end Sys2Proof.Machine
end

