-- ==== Sys2Proof/Laws/Flags.lean ====
section
/-! SUPPORT. What the ALU answers, said once (40_instruction_contract.md R136). -/

namespace Sys2Proof.Machine

/-- The 8-bit result is the wrapping difference of the operands and the borrow input. -/
theorem trunc8_difference (a b : Byte) (cin : Bool) :
    trunc8 (difference a b cin) = a - b - (if cin then 1#8 else 0#8) := by
  apply BitVec.eq_of_toNat_eq
  have ha := a.isLt
  have hb := b.isLt
  cases cin <;>
    simp only [trunc8, difference, BitVec.toNat_ofInt, BitVec.toNat_sub, BitVec.toNat_ofNat, Bool.toNat_true,
      Bool.toNat_false, if_true, if_false, Bool.false_eq_true] <;> omega

@[simp] theorem subFlags_result (mag : Mag) (a b : Byte) (cin : Bool) (f : Flags) :
    (subFlags mag a b cin f).1 = a - b - (if cin then 1#8 else 0#8) := trunc8_difference a b cin

@[simp] theorem subFlags_c (mag : Mag) (a b : Byte) (cin : Bool) (f : Flags) :
    (subFlags mag a b cin f).2.c = carryFlag mag a b := rfl

@[simp] theorem subFlags_z (mag : Mag) (a b : Byte) (cin : Bool) (f : Flags) :
    (subFlags mag a b cin f).2.z = zeroFlag (subFlags mag a b cin f).1 := rfl

@[simp] theorem subFlags_n (mag : Mag) (a b : Byte) (cin : Bool) (f : Flags) :
    (subFlags mag a b cin f).2.n = negativeFlag (subFlags mag a b cin f).1 := rfl

@[simp] theorem subFlags_v (mag : Mag) (a b : Byte) (cin : Bool) (f : Flags) :
    (subFlags mag a b cin f).2.v = overflowFlag a b (subFlags mag a b cin f).1 := rfl

@[simp] theorem subFlags_s (mag : Mag) (a b : Byte) (cin : Bool) (f : Flags) :
    (subFlags mag a b cin f).2.s = ((subFlags mag a b cin f).2.n ^^ (subFlags mag a b cin f).2.v) := rfl

@[simp] theorem subFlags_h (mag : Mag) (a b : Byte) (cin : Bool) (f : Flags) :
    (subFlags mag a b cin f).2.h = f.h := rfl

@[simp] theorem subFlags_t (mag : Mag) (a b : Byte) (cin : Bool) (f : Flags) :
    (subFlags mag a b cin f).2.t = f.t := rfl

@[simp] theorem subFlags_i (mag : Mag) (a b : Byte) (cin : Bool) (f : Flags) :
    (subFlags mag a b cin f).2.i = f.i := rfl

/-- Equal operands have equal magnitudes, so they never set the carry, under either instance (R137). -/
@[simp] theorem carryFlag_self (mag : Mag) (a : Byte) : carryFlag mag a a = false := by simp [carryFlag]

end Sys2Proof.Machine
end

