-- ==== Sys2Proof/Laws/Loop.lean ====
section
/-! SUPPORT. What one step request can do, said once (44_commit_and_loop.md R210). -/

namespace Sys2Proof.Machine

theorem fetch_eq_none_iff (s : State) : fetch s = none ↔ programLength s ≤ s.pc.toNat := by
  simp [fetch, programLength]

/-- What the loop guard leaves: the state as it was, or the state with one counter set; and where it stops the step, a
Runtime-Error with that label's id. -/
theorem loopGuard_cases (i : Instr) (s : State) :
    loopGuard i s = ⟨s, .ok⟩ ∨
    ∃ id : LabelId, i = .label id.toNat ∧ s.cfg.batch = true ∧
      ((guardCount s id = none ∧ loopGuard i s = ⟨setGuard s id 0, .ok⟩) ∨
      (∃ n, guardCount s id = some n ∧ n + 1 ≤ s.cfg.maxJumps ∧ loopGuard i s = ⟨setGuard s id (n + 1), .ok⟩) ∨
      (∃ n, guardCount s id = some n ∧ s.cfg.maxJumps < n + 1 ∧
        loopGuard i s = ⟨setGuard s id (n + 1), .err (.runtimeError id)⟩)) := by
  unfold loopGuard
  split
  · rename_i id hid
    split
    · rename_i hb
      refine .inr ⟨id, ?_, hb, ?_⟩
      · cases i with
        | label n => rw [labelId?_eq_some hid]
        | cpc d r => cases hid
        | sbc d r => cases hid
        | ldi d k => cases hid
      · unfold countEncounter
        split
        · rename_i hg; exact .inl ⟨hg, rfl⟩
        · rename_i n hg
          split
          · rename_i hn; exact .inr (.inr ⟨n, hg, hn, rfl⟩)
          · rename_i hn; exact .inr (.inl ⟨n, hg, by omega, rfl⟩)
    · exact .inl rfl
  · exact .inl rfl

/-- The whole step, its four endings and the last two apart: already Finished; out of bounds; a reserved word; the loop
guard passed and an instruction run; the loop guard exceeded. -/
theorem request_cases (s : State) :
    (s.finished = true ∧ request s = ⟨s, .ok⟩) ∨
    (s.finished = false ∧ fetch s = none ∧ request s = ⟨finish s, .ok⟩) ∨
    (s.finished = false ∧ ∃ w, fetch s = some w ∧ decode w = .reserved ∧
      request s = ⟨s, .err (.malformedInstruction s.pc w)⟩) ∨
    (s.finished = false ∧ ∃ w i, fetch s = some w ∧ decode w = .instr i ∧
      (((loopGuard i s).status = .ok ∧ request s = runInstr i (loopGuard i s).state) ∨
      (∃ id, (loopGuard i s).status = .err (.runtimeError id) ∧ request s = loopGuard i s))) := by
  unfold request
  cases hf : s.finished with
  | true => simp
  | false =>
    simp only [Bool.false_eq_true, if_false, false_and, false_or, true_and]
    cases hw : fetch s with
    | none => simp
    | some w =>
      cases hd : decode w with
      | reserved => simp [abandon, hd]
      | instr i =>
        refine .inr (.inr ⟨w, i, rfl, hd, ?_⟩)
        simp only [hd]
        unfold runGuarded
        rcases loopGuard_cases i s with h | ⟨id, -, -, ⟨-, h⟩ | ⟨n, -, -, h⟩ | ⟨n, -, -, h⟩⟩ <;> simp [h]

/-- The word `storeAtFetch` places is the word the next step fetches. -/
theorem fetch_storeAtFetch (s : State) (w : Word) : fetch (storeAtFetch s w) = some w := by
  have hk : placeIndex s < 2 ^ 16 := by
    unfold placeIndex; split
    · decide
    · exact s.pc.isLt
  simp only [fetch, storeAtFetch, BitVec.toNat_ofNat, Nat.mod_eq_of_lt hk, progWith]
  rw [List.append_assoc, List.getElem?_append]
  simp only [List.length_take]
  split
  · omega
  · rw [List.getElem?_append]
    simp only [List.length_replicate]
    split
    · omega
    · rw [show placeIndex s - min (placeIndex s) s.cfg.prog.length - (placeIndex s - s.cfg.prog.length) = 0 by omega]
      rfl

theorem storeAtFetch_running (s : State) (w : Word) : (storeAtFetch s w).finished = false := rfl

end Sys2Proof.Machine
end

