-- ==== Sys2Proof/Laws/PerInstr.lean ====
section
/-! SUPPORT. Statements made for every instruction, one lemma per constructor (LAWS.json). -/

namespace Sys2Proof.Laws

/-- The word of every instruction carries the fixed bits of its row of the opcode map, whatever its operands are
(30_encoding.md R95 to R98). -/
def OpcodeBits.Statement (i : Instr) : Prop := i.row.fits (encode i) = true

/-- The operand bits of format `RR` lie outside the mask `0xFC00`. -/
theorem rrOperands_masked (d r : BitVec 5) : rrOperands d r &&& 0xFC00#16 = 0#16 := by
  apply BitVec.eq_of_getLsbD_eq
  intro k hk
  interval_cases k <;> simp [rrOperands, placed]

/-- The operand bits of format `RI` lie outside the mask `0xF000`. -/
theorem riOperands_masked (dd : BitVec 4) (k : Byte) : riOperands dd k &&& 0xF000#16 = 0#16 := by
  apply BitVec.eq_of_getLsbD_eq
  intro j hj
  interval_cases j <;> simp [riOperands, placed]

/-- The operand bits of format `L` lie outside the mask `0xFF00`. -/
theorem placed_id_masked (id : LabelId) : placed id 0 &&& 0xFF00#16 = 0#16 := by
  apply BitVec.eq_of_getLsbD_eq
  intro j hj
  interval_cases j <;> simp [placed]

theorem OpcodeBits.label (id : Int) : OpcodeBits.Statement (.label id) := by
  simp [OpcodeBits.Statement, Instr.row, OpcodeRow.fits, rowLabel, encode, placed_id_masked]

theorem OpcodeBits.cpc (d r : Int) : OpcodeBits.Statement (.cpc d r) := by
  simp [OpcodeBits.Statement, Instr.row, OpcodeRow.fits, rowCpc, encode, BitVec.and_or_distrib_right, rrOperands_masked]

theorem OpcodeBits.sbc (d r : Int) : OpcodeBits.Statement (.sbc d r) := by
  simp [OpcodeBits.Statement, Instr.row, OpcodeRow.fits, rowSbc, encode, BitVec.and_or_distrib_right, rrOperands_masked]

theorem OpcodeBits.ldi (d k : Int) : OpcodeBits.Statement (.ldi d k) := by
  simp [OpcodeBits.Statement, Instr.row, OpcodeRow.fits, rowLdi, encode, BitVec.and_or_distrib_right, riOperands_masked]

end Sys2Proof.Laws
end

