-- ==== Sys2Proof/Tests/Slice0.lean ====
section
/-! SUPPORT. The model's own tests. Expected results are from 95_test_vectors.md and the rules' worked examples, never
from the model. The witnesses at the end show states and operands that meet the hypotheses of the statements. -/

namespace Sys2Proof.Tests

open Sys2Proof.Machine

/-! ### Helpers -/

/-- The next state of an outcome, if it is one. -/
def next? : Host.Outcome State Fault Refusal → Option State
  | .next t => some t
  | .fault _ => none
  | .refused _ => none

/-- The fault of an outcome, if it is one. -/
def fault? : Host.Outcome State Fault Refusal → Option Fault
  | .next _ => none
  | .fault f => some f
  | .refused _ => none

/-- The reset state with a program, in interactive mode. -/
def loaded (prog : List Word) : State := State.resetWith { RunConfig.default with prog := prog }

/-- The reset state with a program, in batch mode with the given `MAX_JUMPS`. -/
def batched (prog : List Word) (maxJumps : Nat) : State :=
  State.resetWith { RunConfig.default with prog := prog, batch := true, maxJumps := maxJumps }

/-- `s` with two registers set and the carry as given. -/
def withRegs (s : State) (d : Reg) (a : Byte) (r : Reg) (b : Byte) (c : Bool) : State :=
  { s with regs := (s.regs.set d a).set r b, flags := { s.flags with c := c } }

/-- The register `d` and the flags C, Z, N, V, S of a next state. -/
def result? (d : Reg) (o : Host.Outcome State Fault Refusal) : Option (Byte × Bool × Bool × Bool × Bool × Bool) :=
  (next? o).map fun t => (readReg t d, t.flags.c, t.flags.z, t.flags.n, t.flags.v, t.flags.s)

/-! ### Decoding: words written out from 30_encoding.md, with V1's edges -/

theorem test_decode_label : decode 0b0000000000000111#16 = .instr (.label 7) := by decide
theorem test_decode_cpc : decode 0b0000011100000001#16 = .instr (.cpc 16 17) := by decide
theorem test_decode_sbc : decode 0b0000101100100011#16 = .instr (.sbc 18 19) := by decide
theorem test_decode_ldi : decode 0b1110101001000101#16 = .instr (.ldi 20 0xA5) := by decide
theorem test_decode_cpc_dest_bit4 : decode 0x0500#16 = .instr (.cpc 16 0) := by decide
theorem test_decode_sbc_source_bit4 : decode 0x0A0F#16 = .instr (.sbc 0 31) := by decide
theorem test_decode_reserved_edges :
    decode 0x0100#16 = .reserved ∧ decode 0x03FF#16 = .reserved ∧ decode 0x0C00#16 = .reserved ∧
    decode 0x9508#16 = .reserved ∧ decode 0xDFFF#16 = .reserved ∧ decode 0xF000#16 = .reserved := by decide
theorem test_encode_samples :
    encode (.cpc 25 1) = 0x0591#16 ∧ encode (.sbc 25 25) = 0x0B99#16 ∧ encode (.ldi 24 5) = 0xE085#16 ∧
    encode (.label 255) = 0x00FF#16 := by decide
theorem test_decodeTableWord : decodeTableWord 16 0xEF0F = some (.ldi 16 0xFF) ∧ decodeTableWord 16 0x9508 = none := by
  decide

/-! ### Construction (V2): an ill-formed term for each check -/

theorem test_cpc_dest_too_large : Instr.wellFormed (.cpc 32 0) = false := by decide
theorem test_cpc_source_too_large : Instr.wellFormed (.cpc 0 32) = false := by decide
theorem test_cpc_dest_negative : Instr.wellFormed (.cpc (-1) 0) = false := by decide
theorem test_sbc_source_too_large : Instr.wellFormed (.sbc 0 32) = false := by decide
theorem test_sbc_dest_too_large : Instr.wellFormed (.sbc 32 0) = false := by decide
theorem test_ldi_dest_lower : Instr.wellFormed (.ldi 15 0) = false := by decide
theorem test_ldi_dest_too_large : Instr.wellFormed (.ldi 32 0) = false := by decide
theorem test_ldi_immediate_too_large : Instr.wellFormed (.ldi 16 256) = false := by decide
theorem test_ldi_immediate_negative : Instr.wellFormed (.ldi 16 (-1)) = false := by decide
theorem test_label_too_large : Instr.wellFormed (.label 256) = false := by decide
theorem test_label_negative : Instr.wellFormed (.label (-1)) = false := by decide
theorem test_wellFormed_edges :
    Instr.wellFormed (.cpc 31 31) = true ∧ Instr.wellFormed (.sbc 31 0) = true ∧
    Instr.wellFormed (.ldi 16 0) = true ∧ Instr.wellFormed (.ldi 31 255) = true ∧
    Instr.wellFormed (.label 0) = true ∧ Instr.wellFormed (.label 255) = true := by decide
theorem test_ill_formed_faults :
    fault? (exec (.ldi 15 0) State.reset) = some (.malformedOperands (.ldi 15 0)) := by decide

/-! ### The instructions (V3, V4) -/

/-- V3 row 1, the source's overflow-law example. -/
theorem test_cpc_overflow_law :
    result? 16 (exec (.cpc 16 0) (withRegs State.reset 16 0x80#8 0 0x00#8 false)) =
      some (0x80#8, false, false, true, false, true) := by decide

/-- V3 row 19: the magnitude carry where nothing borrows; the old carry is not read. -/
theorem test_cpc_magnitude_carry :
    result? 1 (exec (.cpc 1 2) (withRegs State.reset 1 0xC8#8 2 0x64#8 true)) =
      some (0xC8#8, true, false, false, true, true) := by decide

/-- V3 row 2, the source's carry-chaining example. -/
theorem test_sbc_carry_chaining :
    result? 18 (exec (.sbc 18 19) (withRegs State.reset 18 0x05#8 19 0x03#8 true)) =
      some (0x01#8, false, false, false, false, false) := by decide

/-- V3 row 9: the one input whose difference is -256. -/
theorem test_sbc_minus_256 :
    result? 0 (exec (.sbc 0 1) (withRegs State.reset 0 0x00#8 1 0xFF#8 true)) =
      some (0x00#8, true, true, false, false, false) := by decide

/-- P6 step 3: the two instances of MAG part. -/
theorem test_mag_is_a_parameter :
    (next? (exec (.cpc 16 17) (withRegs State.reset 16 0x7F#8 17 0xFF#8 false))).map (·.flags.c) = some false ∧
    (next? (exec (.cpc 16 17) (withRegs { State.reset with cfg := { RunConfig.default with mag := .unsigned8 } }
      16 0x7F#8 17 0xFF#8 false))).map (·.flags.c) = some true := by decide

/-- V4 row 2: all flags set, none cleared. -/
theorem test_ldi_keeps_flags :
    (next? (exec (.ldi 31 0xFF) { State.reset with pc := 5#16, flags := ⟨true, true, true, true, true, true, true, true⟩ })).map
      (fun t => (readReg t 31, t.pc, t.flags)) =
      some (0xFF#8, 6#16, ⟨true, true, true, true, true, true, true, true⟩) := by decide

/-- V4 row 4. -/
theorem test_label_only_pc :
    next? (exec (.label 7) { State.reset with pc := 3#16 }) = some { State.reset with pc := 4#16 } := by decide

/-! ### Commit (V5) -/

/-- K5: the long write, applied later, wins. -/
theorem test_commit_long_wins :
    (commit { State.reset with pc := 7#16 }
      { onlyPc 8#16 with mem := some (0x0301#16, 0xAA#8), long := some (0x0300#16, 0x1234#16) }).stack =
      [(0x0300, 0x12#8), (0x0301, 0x34#8)] := by decide

/-- K2 and K6. -/
theorem test_commit_regs_sp :
    (fun t : State => (readReg t 0, readReg t 31, readReg t 1, t.sp, t.pc)) (commit { State.reset with sp := 0x0100#16 }
      { onlyPc 8#16 with regs := (noRegWrites.set 0 (some 0x11#8)).set 31 (some 0xEE#8), sp := some 0x0000#16 }) =
      (0x11#8, 0xEE#8, 0x00#8, 0x0000#16, 8#16) := by decide

/-- K8 and K11: the sentinel ends the run, index `N - 1` does not. -/
theorem test_termination_check :
    (terminationCheck (commit (loaded (List.replicate 10 0#16)) (onlyPc 0xFFFF#16))).finished = true ∧
    (terminationCheck (commit (loaded (List.replicate 10 0#16)) (onlyPc 9#16))).finished = false := by decide

/-! ### The loop (V6, V7) -/

/-- P4 step 4: the reserved word faults, with the state unchanged. -/
theorem test_reserved_word :
    request { loaded [0xE800#16, 0x0000#16, 0x0500#16, 0x9508#16] with pc := 3#16 } =
      ⟨{ loaded [0xE800#16, 0x0000#16, 0x0500#16, 0x9508#16] with pc := 3#16 },
        .err (.malformedInstruction 3#16 0x9508#16)⟩ := by decide

/-- V6, `MAX_JUMPS = 0`: the second encounter fails and the counter is 1; the pc stays. -/
theorem test_guard_second_encounter :
    (fun r : Reply => (r.status, guardCount r.state 1#8, r.state.pc))
      (request { batched [0x0001#16, 0x0001#16] 0 with pc := 1#16, guard := [(1, 0)] }) =
      (.err (.runtimeError 1#8), some 1, 1#16) := by decide

/-- V7: the empty program finishes in one step, with status ok and the pc unmoved. -/
theorem test_empty_program : request (loaded []) = ⟨{ loaded [] with finished := true }, .ok⟩ := by decide

/-- V7: `N = 1`: one step loads and finishes. -/
theorem test_one_word_program :
    (next? (step (loaded [0xE005#16]))).map (fun t => (readReg t 16, t.pc, t.finished)) =
      some (0x05#8, 1#16, true) := by decide

/-- An instruction placed by withFetchWord is the one the next step runs. -/
theorem test_withFetchWord :
    (next? (step (State.reset.withFetchWord 16 0xE085))).map (fun t => (readReg t 24, t.pc)) =
      some (0x05#8, 1#16) := by decide

/-- The packed byte of the flags C, N, S (K7): bits 0, 2 and 4. -/
theorem test_packFlags : packFlags ⟨true, false, true, false, true, false, false, false⟩ = 0b00010101#8 := by decide

/-! ### Witnesses: the hypotheses of the statements can be met -/

theorem witness_DecodeOfEncode : ∃ i : Instr, i.wellFormed = true := ⟨.cpc 31 0, by decide⟩
theorem witness_EncodeOfDecode : decode 0x0BFF#16 = .instr (.sbc 31 31) := by decide
theorem witness_OutOfRange : ¬((0 : Int) ≤ 32 ∧ (32 : Int) ≤ 31 ∧ (0 : Int) ≤ 0 ∧ (0 : Int) ≤ 31) := by decide
theorem witness_CpcEncoding : (0x0701#16 : Word).extractLsb' 10 6 = 0b000001#6 := by decide
theorem witness_SbcEncoding : (0x0B23#16 : Word).extractLsb' 10 6 = 0b000010#6 := by decide
theorem witness_LdiEncoding : (0xE085#16 : Word).extractLsb' 12 4 = 0b1110#4 := by decide
theorem witness_LdiOutOfRange : ¬((16 : Int) ≤ 15 ∧ (15 : Int) ≤ 31 ∧ (0 : Int) ≤ 0 ∧ (0 : Int) ≤ 255) := by decide
theorem witness_LdiUpper : (16 : Nat) ≤ (16 : Reg).val ∧ (16 : Nat) ≤ (31 : Reg).val := by decide
theorem witness_LabelEncoding : (0x0007#16 : Word).extractLsb' 8 8 = 0x00#8 := by decide
theorem witness_SbcResult :
    (0x01#8 : Byte) = readReg (withRegs State.reset 18 0x05#8 19 0x03#8 true) 18 -
      readReg (withRegs State.reset 18 0x05#8 19 0x03#8 true) 19 -
      (if (withRegs State.reset 18 0x05#8 19 0x03#8 true).flags.c then 1#8 else 0#8) := by decide
theorem witness_EqualOperands : readReg (withRegs State.reset 1 0x42#8 2 0x42#8 false) 1 =
    readReg (withRegs State.reset 1 0x42#8 2 0x42#8 false) 2 := by decide
theorem witness_BothBelow0x80 : (0x7F#8 : Byte).getLsbD 7 = false ∧ (0x00#8 : Byte).getLsbD 7 = false := by decide
theorem witness_ArithmeticFrame :
    (next? (exec (.cpc 31 0) State.reset)).isSome = true ∧ (next? (exec (.sbc 0 31) State.reset)).isSome = true := by decide
theorem witness_LoadAndMarkerFrame :
    (next? (exec (.ldi 16 255) State.reset)).isSome = true ∧ (next? (exec (.label 255) State.reset)).isSome = true := by
  decide
theorem witness_RegistersChange :
    readReg (request (loaded [0xE005#16])).state 16 ≠ readReg (loaded [0xE005#16]) 16 := by decide
theorem witness_FlagsChange : (request (loaded [0x0400#16])).state.flags ≠ (loaded [0x0400#16]).flags := by decide
theorem witness_CommitRegisters :
    (oneRegWrite 3 0x11#8)[3] = some 0x11#8 ∧ (oneRegWrite 3 0x11#8)[4] = none := by decide
theorem witness_CommitStack :
    ({ onlyPc 1#16 with mem := some (0x0301#16, 0xAA#8), long := some (0xFFFF#16, 0x1234#16) } : Descriptor).long =
      some (0xFFFF#16, 0x1234#16) ∧ (0x0000#16 : Word) = 0xFFFF#16 + 1#16 ∧ (0x0301#16 : Word) ≠ 0xFFFF#16 ∧
      (0x0301#16 : Word) ≠ 0xFFFF#16 + 1#16 := by decide
theorem witness_CommitSp : ({ onlyPc 1#16 with sp := some 0#16 } : Descriptor).sp = some 0#16 ∧ (onlyPc 1#16).sp = none ∧
    (onlyPc 1#16).flags = none ∧ ({ onlyPc 1#16 with flags := some Flags.clear } : Descriptor).flags = some Flags.clear ∧
    Memory.wf [(0, 1#8), (0xFFFF, 2#8)] = true := by decide
theorem witness_LongWriteFrame : (2#16 : Word) ≠ 0#16 ∧ (2#16 : Word) ≠ 0#16 + 1#16 := by decide
theorem witness_FailedExecution : fault? (exec (.cpc 32 0) State.reset) = some (.malformedOperands (.cpc 32 0)) := by decide
theorem witness_StepRuns_interactive :
    (loaded [0x0701#16]).finished = false ∧ (loaded [0x0701#16]).cfg.prog[(loaded [0x0701#16]).pc.toNat]? = some 0x0701#16 ∧
    decode 0x0701#16 = .instr (.cpc 16 17) ∧ (loaded [0x0701#16]).cfg.batch = false := by decide
theorem witness_StepRuns_batch_first :
    (batched [0x0001#16] 0).cfg.batch = true ∧ guardCount (batched [0x0001#16] 0) 1#8 = none ∧
    fetch (batched [0x0001#16] 0) = some 0x0001#16 ∧ decode 0x0001#16 = .instr (.label (1#8 : LabelId).toNat) := by decide
theorem witness_StepRuns_batch_later :
    guardCount { batched [0x0001#16] 1 with guard := [(1, 0)] } 1#8 = some 0 ∧ 0 + 1 ≤ (batched [0x0001#16] 1).cfg.maxJumps ∧
    fetch { batched [0x0001#16] 1 with guard := [(1, 0)] } = some 0x0001#16 := by decide
theorem witness_Finished : (finish State.reset).finished = true := by decide
theorem witness_OutOfBounds : programLength (loaded []) ≤ (loaded []).pc.toNat ∧ (loaded []).finished = false := by decide
theorem witness_OutOfBounds_sentinel : programLength { loaded [0#16] with pc := 0xFFFF#16 } ≤ 0xFFFF ∧
    ({ loaded [0#16] with pc := 0xFFFF#16 } : State).pc = 0xFFFF#16 := by decide
theorem witness_InBounds_goes_on :
    (loaded [0#16, 0#16]).pc.toNat < programLength (loaded [0#16, 0#16]) ∧
    (next? (step (loaded [0#16, 0#16]))).map (·.finished) = some false := by decide
theorem witness_ReservedWord : (loaded [0x9508#16]).finished = false ∧ fetch (loaded [0x9508#16]) = some 0x9508#16 ∧
    decode 0x9508#16 = .reserved := by decide
theorem witness_GuardExceeded :
    guardCount { batched [0x0001#16] 0 with guard := [(1, 0)] } 1#8 = some 0 ∧ (batched [0x0001#16] 0).cfg.maxJumps < 0 + 1 ∧
    fetch { batched [0x0001#16] 0 with guard := [(1, 0)] } = some 0x0001#16 := by decide
theorem witness_GuardOtherId : (2#8 : LabelId) ≠ 1#8 := by decide
theorem witness_Termination :
    (loaded [0#16]).finished = false ∧ programLength (loaded [0#16]) ≤ 0xFFFF ∧
    (loaded [0#16]).pc.toNat < programLength (loaded [0#16]) ∧ (next? (step (loaded [0#16]))).isSome = true := by decide
theorem witness_Error : (request (loaded [0x9508#16])).status = .err (.malformedInstruction 0#16 0x9508#16) := by decide
theorem witness_Error_runtime :
    (request { batched [0x0001#16] 0 with guard := [(1, 0)] }).status = .err (.runtimeError 1#8) := by decide
theorem witness_Interactive : (loaded [0x0001#16]).cfg.batch = false := by decide
theorem witness_Interactive_compared :
    (request { batched [0x0001#16] 0 with cfg := { (batched [0x0001#16] 0).cfg with batch := true } }).status = .ok := by decide
theorem witness_PcUnmoved : (request (loaded [0x9508#16])).status ≠ .ok := by decide
theorem witness_ResetIsSound : cfgWf { RunConfig.default with prog := [0xE005#16], stackImage := [(0x08FF, 0xFF#8)] } = true := by
  decide
theorem witness_ResetEmptyImage : RunConfig.default.stackImage = [] := by decide

/-- A sound state that is not a reset state: its step completes, so the invariant's statement has work to do. -/
theorem witness_SoundStep :
    Sound (batched [0x0001#16, 0x0B10#16] 3) ∧ (next? (step (batched [0x0001#16, 0x0B10#16] 3))).isSome = true :=
  ⟨{ cfg := by decide
     stack := by decide
     heap := by decide
     guardForm := by decide
     guardBound := fun id n h => by cases h
     guardAbsent := fun h => by cases h
     sign := by decide
     ended := fun h => by cases h }, by decide⟩

theorem witness_ValidImage : validImage (loaded [0xE005#16, 0x0001#16]).cfg.prog = true ∧
    (loaded [0xE005#16, 0x0001#16]).cfg.batch = false ∧
    (loaded [0xE005#16, 0x0001#16]).pc.toNat < programLength (loaded [0xE005#16, 0x0001#16]) := by decide
theorem witness_Run : (next? (Host.Core.run Sys2Proof.core 2 (loaded [0xE005#16, 0x0001#16]))).isSome = true := by decide

/-- A batch run on a valid image that aborts: the same marker twice with `MAX_JUMPS = 0`. -/
theorem witness_Aborts : Aborts (batched [0x0001#16, 0x0001#16] 0) (.runtimeError 1#8) ∧
    validImage (batched [0x0001#16, 0x0001#16] 0).cfg.prog = true :=
  ⟨⟨2, by rfl⟩, by decide⟩

end Sys2Proof.Tests
end

section
/-! The run's parameters are constant: every stage of a step keeps `cfg`, hence so does any number of step requests
(20_memory.md R76; 10_state.md R34). -/

namespace Sys2Proof.Machine

theorem exec_cfg {i : Instr} {s t : State} (h : exec i s = .next t) : t.cfg = s.cfg := by
  rcases exec_cases h with ⟨_, _, rfl⟩ | ⟨_, _, _, rfl⟩ | ⟨_, _, _, rfl⟩ | ⟨_, _, _, _, rfl⟩ <;>
    exact commit_cfg _ _

@[simp] theorem loopGuard_cfg (i : Instr) (s : State) : (loopGuard i s).state.cfg = s.cfg := by
  rcases loopGuard_cases i s with h | ⟨id, -, -, ⟨-, h⟩ | ⟨n, -, -, h⟩ | ⟨n, -, -, h⟩⟩ <;> simp [h]

@[simp] theorem runInstr_cfg (i : Instr) (s : State) : (runInstr i s).state.cfg = s.cfg := by
  unfold runInstr
  cases h : exec i s with
  | next t => simpa using exec_cfg h
  | fault f => rfl
  | refused why => rfl

@[simp] theorem request_cfg (s : State) : (request s).state.cfg = s.cfg := by
  rcases request_cases s with ⟨-, h⟩ | ⟨-, -, h⟩ | ⟨-, w, -, -, h⟩ | ⟨-, w, i, -, -, ⟨-, h⟩ | ⟨id, -, h⟩⟩ <;> simp [h]

/-- What every step request keeps, any number of step requests keeps. -/
theorem requests_keep {P : State → Prop} (hstep : ∀ s, P s → P (request s).state) (n : Nat) :
    ∀ s, P s → P (requests n s) := by
  induction n with
  | zero => exact fun _ hs => hs
  | succ n ih => exact fun s hs => ih _ (hstep s hs)

@[simp] theorem requests_cfg (n : Nat) (s : State) : (requests n s).cfg = s.cfg :=
  requests_keep (P := fun t => t.cfg = s.cfg) (fun t ht => (request_cfg t).trans ht) n s rfl

/-- Settles O38: commit and every step request keep the parameters, so the fetch reads the program latched at reset. -/
theorem programSpaceIsImmutable : Obligations.ProgramSpaceIsImmutable := by
  unfold Obligations.ProgramSpaceIsImmutable
  refine ⟨commit_cfg, fun p n => ?_⟩
  have hcfg : (requests n (State.resetWith p)).cfg = p := requests_cfg n (State.resetWith p)
  exact ⟨hcfg, by rw [fetch, hcfg]⟩

end Sys2Proof.Machine
end

section
/-! The flags CPC and SBC commit are the ALU's answer on the old operands: N, S and the kept flags (R132, R134, R135),
and the carry, which looks at the magnitudes only (R130). -/

namespace Sys2Proof.Machine

theorem exec_cpc_reg (d r : Reg) (s : State) :
    exec (.cpc d.val r.val) s = .next (commit s (cpcDescriptor d r s)) := execCpc_reg d r s

theorem exec_sbc_reg (d r : Reg) (s : State) :
    exec (.sbc d.val r.val) s = .next (commit s (sbcDescriptor d r s)) := execSbc_reg d r s

theorem commit_cpc_flags (d r : Reg) (s : State) : (commit s (cpcDescriptor d r s)).flags =
    (subFlags s.cfg.mag (readReg s d) (readReg s r) false s.flags).2 := by
  simp [cpcDescriptor_flags]

theorem commit_sbc_flags (d r : Reg) (s : State) : (commit s (sbcDescriptor d r s)).flags =
    (subFlags s.cfg.mag (readReg s d) (readReg s r) s.flags.c s.flags).2 := by
  simp [sbcDescriptor_flags]

/-- SBC leaves the ALU's result in its destination, where it is also the source (R151). -/
theorem readReg_commit_sbc (d r : Reg) (s : State) : readReg (commit s (sbcDescriptor d r s)) d =
    (subFlags s.cfg.mag (readReg s d) (readReg s r) s.flags.c s.flags).1 := by
  simp only [readReg, commit_regs, sbcDescriptor_regs, mergeRegs_oneRegWrite]
  exact Vector.getElem_set_self d.isLt

/-- Settles O10: both operations commit the ALU's flags, and SBC writes the result whose bit 7 is N. -/
theorem negativeSignAndKeptFlags : Obligations.NegativeSignAndKeptFlags := by
  unfold Obligations.NegativeSignAndKeptFlags
  refine fun d r s => ⟨⟨_, exec_cpc_reg d r s, ?_⟩, ⟨_, exec_sbc_reg d r s, ?_⟩⟩
  · rw [commit_cpc_flags]
    refine ⟨?_, rfl, rfl, rfl, rfl⟩
    simp [negativeFlag]
  · rw [commit_sbc_flags, readReg_commit_sbc]
    exact ⟨rfl, rfl, rfl, rfl, rfl⟩

theorem carryFlag_eq_true_iff (mag : Mag) (a b : Byte) :
    carryFlag mag a b = true ↔ magnitude mag b > magnitude mag a := decide_eq_true_iff

/-- The carry CPC commits mentions neither the old flags nor the result. -/
theorem commit_cpc_carry (d r : Reg) (s : State) : (commit s (cpcDescriptor d r s)).flags.c =
    carryFlag s.cfg.mag (readReg s d) (readReg s r) := by
  rw [commit_cpc_flags, subFlags_c]

/-- The carry SBC commits is the one CPC commits: the borrow input does not enter it. -/
theorem commit_sbc_carry (d r : Reg) (s : State) : (commit s (sbcDescriptor d r s)).flags.c =
    carryFlag s.cfg.mag (readReg s d) (readReg s r) := by
  rw [commit_sbc_flags, subFlags_c]

/-- `x[0] = 1` and `x[1] = 0xFF = -1`: equal magnitudes under `signed8`, but an unsigned subtraction borrows. -/
def equalMagnitudesState : State :=
  { State.reset with regs := (State.reset.regs.set 0 0x01#8).set 1 0xFF#8 }

theorem equalMagnitudesState_carry_ne_borrow :
    carryFlag equalMagnitudesState.cfg.mag (readReg equalMagnitudesState 0) (readReg equalMagnitudesState 1) ≠
      decide ((readReg equalMagnitudesState 0).toNat < (readReg equalMagnitudesState 1).toNat) := by decide

/-- Settles O11: the carry is the magnitude comparison at any flags, and on 1 and 0xFF it differs from the unsigned
borrow. The choice of `signed8` there is the spec's (R137, D2). -/
theorem carryComparesMagnitudes : Obligations.CarryComparesMagnitudes := by
  unfold Obligations.CarryComparesMagnitudes
  constructor
  · refine fun d r s f => ⟨_, _, exec_cpc_reg d r _, exec_sbc_reg d r _, ?_, ?_⟩
    · rw [commit_cpc_carry]
      exact carryFlag_eq_true_iff _ _ _
    · rw [commit_sbc_carry]
      exact carryFlag_eq_true_iff _ _ _
  · refine ⟨0, 1, equalMagnitudesState, _, _, rfl, exec_cpc_reg 0 1 _, exec_sbc_reg 0 1 _, ?_, ?_⟩
    · rw [commit_cpc_carry]
      exact equalMagnitudesState_carry_ne_borrow
    · rw [commit_sbc_carry]
      exact equalMagnitudesState_carry_ne_borrow

end Sys2Proof.Machine
end

section
/-! The whole effect of CPC and SBC (R150, R151): the words that decode to them, the next state on register operands,
and the fault on any other operand. -/

namespace Sys2Proof.Machine

/-! ### The encodings of format `RR` -/

/-- A word whose top byte is clear has its top six bits clear, so no `LABEL` word is a word of format `RR`. -/
theorem bitsAt_ten_six_of_label {w : Word} (h : bitsAt w 8 8 = 0x00#8) : bitsAt w 10 6 = 0b000000#6 := by
  have hsub : bitsAt w 10 6 = (bitsAt w 8 8).extractLsb' 2 6 := by
    apply BitVec.eq_of_getLsbD_eq
    intro i hi
    have hi8 : 2 + i < 8 := by omega
    simp [bitsAt, hi8, ← Nat.add_assoc]
  rw [hsub, h]
  decide

theorem decode_cpc {w : Word} (h : bitsAt w 10 6 = 0b000001#6) :
    decode w = .instr (.cpc (rrDest w).toNat (rrSource w).toNat) := by
  have hlabel : bitsAt w 8 8 ≠ 0x00#8 := fun h0 => absurd (h.symm.trans (bitsAt_ten_six_of_label h0)) (by decide)
  rw [decode, if_neg hlabel, if_pos h]

theorem decode_sbc {w : Word} (h : bitsAt w 10 6 = 0b000010#6) :
    decode w = .instr (.sbc (rrDest w).toNat (rrSource w).toNat) := by
  have hlabel : bitsAt w 8 8 ≠ 0x00#8 := fun h0 => absurd (h.symm.trans (bitsAt_ten_six_of_label h0)) (by decide)
  have hcpc : bitsAt w 10 6 ≠ 0b000001#6 := fun h1 => absurd (h.symm.trans h1) (by decide)
  rw [decode, if_neg hlabel, if_neg hcpc, if_pos h]

/-! ### The state after register operands -/

/-- The ALU's flags are those the rules R130 to R135 give for its own 8-bit result. -/
theorem subFlags_eq_flagsByRules (mag : Mag) (a b : Byte) (cin : Bool) (f : Flags) :
    (subFlags mag a b cin f).2 = flagsByRules mag a b (subFlags mag a b cin f).1 f := rfl

theorem commit_cpc (d r : Reg) (s : State) : commit s (cpcDescriptor d r s) =
    { s with
      flags := (subFlags s.cfg.mag (readReg s d) (readReg s r) false s.flags).2
      pc := s.pc + 1#16 } := by
  apply State.ext_fields <;> simp [cpcDescriptor_flags, mergeRegs_noRegWrites, nextPc]

theorem commit_sbc (d r : Reg) (s : State) : commit s (sbcDescriptor d r s) =
    { s with
      regs := s.regs.set d (subFlags s.cfg.mag (readReg s d) (readReg s r) s.flags.c s.flags).1
      flags := (subFlags s.cfg.mag (readReg s d) (readReg s r) s.flags.c s.flags).2
      pc := s.pc + 1#16 } := by
  apply State.ext_fields <;> simp [sbcDescriptor_flags, sbcDescriptor_regs, mergeRegs_oneRegWrite, nextPc]

/-! ### Operands out of range -/

theorem not_both_generalReg {d r : Int} (h : ¬(0 ≤ d ∧ d ≤ 31 ∧ 0 ≤ r ∧ r ≤ 31)) (rd rr : Reg)
    (hd : generalReg? d = some rd) (hr : generalReg? r = some rr) : False := by
  have hd' := generalReg?_eq_some hd
  have hr' := generalReg?_eq_some hr
  omega

theorem exec_cpc_outOfRange {d r : Int} (h : ¬(0 ≤ d ∧ d ≤ 31 ∧ 0 ≤ r ∧ r ≤ 31)) (s : State) :
    exec (.cpc d r) s = .fault (.malformedOperands (.cpc d r)) := by
  have hrun : runCpc d r s = illFormed (.cpc d r) := by
    unfold runCpc
    split
    · next rd rr hd hr => exact (not_both_generalReg h rd rr hd hr).elim
    · rfl
    · rfl
  exact congrArg (complete s) hrun

theorem exec_sbc_outOfRange {d r : Int} (h : ¬(0 ≤ d ∧ d ≤ 31 ∧ 0 ≤ r ∧ r ≤ 31)) (s : State) :
    exec (.sbc d r) s = .fault (.malformedOperands (.sbc d r)) := by
  have hrun : runSbc d r s = illFormed (.sbc d r) := by
    unfold runSbc
    split
    · next rd rr hd hr => exact (not_both_generalReg h rd rr hd hr).elim
    · rfl
    · rfl
  exact congrArg (complete s) hrun

/-- Settles O6: CPC commits the pc and the ALU's flags at borrow input 0, which are the rules' flags of `x[d] - x[r]`. -/
theorem cpcSetsFlagsOfDifference : Obligations.CpcSetsFlagsOfDifference := by
  unfold Obligations.CpcSetsFlagsOfDifference
  refine ⟨fun w hw => decode_cpc hw, fun d r s => ?_, fun d r s h => exec_cpc_outOfRange h s⟩
  rw [exec_cpc_reg, commit_cpc, subFlags_eq_flagsByRules, subFlags_result, if_neg Bool.false_ne_true, BitVec.sub_zero]

/-- Settles O7: SBC commits the ALU's result, its flags and the pc; the result is the wrapping difference with the old
carry as borrow. -/
theorem sbcSubtractsWithCarry : Obligations.SbcSubtractsWithCarry := by
  unfold Obligations.SbcSubtractsWithCarry
  refine ⟨fun w hw => decode_sbc hw, fun d r s result hresult => ?_, fun d r s h => exec_sbc_outOfRange h s⟩
  rw [exec_sbc_reg, commit_sbc, subFlags_eq_flagsByRules, subFlags_result, hresult]

end Sys2Proof.Machine
end

section
/-! The whole effect of LDI (R170): the words that decode to it, the next state on an upper register and a byte, and
the fault on any other operands. -/

namespace Sys2Proof.Machine

/-! ### The encoding of format `RI` -/

/-- The top four bits are part of any field that starts `lo` bits lower and reaches up to bit 15. -/
theorem bitsAt_twelve_four_of_field {w : Word} {lo len : Nat} {v : BitVec len} (hlo : lo ≤ 12) (htop : lo + len = 16)
    (h : bitsAt w lo len = v) : bitsAt w 12 4 = v.extractLsb' (12 - lo) 4 := by
  subst h
  apply BitVec.eq_of_getLsbD_eq
  intro i hi
  have hlen : 12 - lo + i < len := by omega
  have hbit : lo + (12 - lo + i) = 12 + i := by omega
  simp [bitsAt, hi, hlen, hbit]

/-- A word with other top four bits than the pattern `v` of a field that reaches up to bit 15 does not fit it. -/
theorem bitsAt_ne_of_topFour {w : Word} {lo len : Nat} {v : BitVec len} (hlo : lo ≤ 12) (htop : lo + len = 16)
    (hv : bitsAt w 12 4 ≠ v.extractLsb' (12 - lo) 4) : bitsAt w lo len ≠ v :=
  fun h => hv (bitsAt_twelve_four_of_field hlo htop h)

/-- A word whose top four bits are 1110 is no word of the other three rows: theirs are 0000 (R99). -/
theorem decode_ldi {w : Word} (h : bitsAt w 12 4 = 0b1110#4) :
    decode w = .instr (.ldi (riDest w) (riImmediate w).toNat) := by
  have hlabel : bitsAt w 8 8 ≠ 0x00#8 := bitsAt_ne_of_topFour (by decide) rfl (by rw [h]; decide)
  have hcpc : bitsAt w 10 6 ≠ 0b000001#6 := bitsAt_ne_of_topFour (by decide) rfl (by rw [h]; decide)
  have hsbc : bitsAt w 10 6 ≠ 0b000010#6 := bitsAt_ne_of_topFour (by decide) rfl (by rw [h]; decide)
  rw [decode, if_neg hlabel, if_neg hcpc, if_neg hsbc, if_pos h]

theorem riDest_cast (w : Word) : ((riDest w : Nat) : Int) = 16 + ((bitsAt w 4 4).toNat : Int) :=
  Int.natCast_add 16 _

/-! ### The state after operands in range -/

theorem exec_ldi_reg {d : Reg} (hd : 16 ≤ d.val) (k : Byte) (s : State) :
    exec (.ldi d.val k.toNat) s = .next (commit s (ldiDescriptor d k s)) := execLdi_reg hd k s

theorem commit_ldi (d : Reg) (k : Byte) (s : State) : commit s (ldiDescriptor d k s) =
    { s with regs := s.regs.set d k, pc := s.pc + 1#16 } := by
  apply State.ext_fields <;> simp [ldiDescriptor_regs, mergeRegs_oneRegWrite, nextPc]

/-! ### Operands out of range -/

theorem not_upperReg_and_immediate {d k : Int} (h : ¬(16 ≤ d ∧ d ≤ 31 ∧ 0 ≤ k ∧ k ≤ 255)) (rd : Reg) (imm : Byte)
    (hd : upperReg? d = some rd) (hk : immediate? k = some imm) : False := by
  obtain ⟨hd', h16⟩ := upperReg?_eq_some hd
  have hk' := immediate?_eq_some hk
  omega

theorem exec_ldi_outOfRange {d k : Int} (h : ¬(16 ≤ d ∧ d ≤ 31 ∧ 0 ≤ k ∧ k ≤ 255)) (s : State) :
    exec (.ldi d k) s = .fault (.malformedOperands (.ldi d k)) := by
  have hrun : runLdi d k s = illFormed (.ldi d k) := by
    unfold runLdi
    split
    · next rd imm hd hk => exact (not_upperReg_and_immediate h rd imm hd hk).elim
    · rfl
    · rfl
  exact congrArg (complete s) hrun

/-- Settles O8: LDI's descriptor is the one register write, so its commit changes `x[d]` and the pc and keeps every
flag. -/
theorem ldiLoadsTheImmediate : Obligations.LdiLoadsTheImmediate := by
  unfold Obligations.LdiLoadsTheImmediate
  refine ⟨fun w hw => ?_, fun d k s hd => ?_, fun d k s h => exec_ldi_outOfRange h s⟩
  · rw [decode_ldi hw, riDest_cast]
    rfl
  · rw [exec_ldi_reg hd, commit_ldi]

end Sys2Proof.Machine
end

section
/-! The commit of any descriptor, register by register and byte by byte of the stack (R192 to R198). -/

namespace Sys2Proof.Machine

theorem readReg_commit (s : State) (ud : Descriptor) (i : Reg) :
    readReg (commit s ud) i = (ud.regs[i]).getD (readReg s i) := by
  simp [readReg]

/-- Settles O21: each field of the committed state is the descriptor's value where it carries one, else the old one. -/
theorem commitWritesRegistersFlagsAndPc : Obligations.CommitWritesRegistersFlagsAndPc := by
  unfold Obligations.CommitWritesRegistersFlagsAndPc
  refine fun s ud => ⟨fun i v h => ?_, fun i h => ?_, fun f h => ?_, fun h => ?_, commit_pc s ud⟩
  · rw [readReg_commit, h, Option.getD_some]
  · rw [readReg_commit, h, Option.getD_none]
  · rw [commit_flags, h, Option.getD_some]
  · rw [commit_flags, h, Option.getD_none]

theorem readStack_writeStack (s : State) (a b : Word) (v : Byte) :
    readStack (writeStack s a v) b = if b = a then v else readStack s b := readByte_writeByte s.stack a b v

theorem readStack_writeStackLong_high (s : State) (a v : Word) :
    readStack (writeStackLong s a v) a = v.extractLsb' 8 8 := by
  have hne : a ≠ a + 1#16 := by simp
  rw [writeStackLong, readStack_writeStack, if_neg hne, readStack_writeStack, if_pos rfl]

theorem readStack_writeStackLong_low (s : State) (a v : Word) :
    readStack (writeStackLong s a v) (a + 1#16) = v.extractLsb' 0 8 := by
  rw [writeStackLong, readStack_writeStack, if_pos rfl]

theorem readStack_writeStackLong_ne (s : State) {a b : Word} (v : Word) (hhigh : b ≠ a) (hlow : b ≠ a + 1#16) :
    readStack (writeStackLong s a v) b = readStack s b := by
  rw [writeStackLong, readStack_writeStack, if_neg hlow, readStack_writeStack, if_neg hhigh]

/-- A descriptor's long write is applied to the stack its single write left, so its bytes win (R198). -/
theorem readStack_commit_of_long (s : State) {ud : Descriptor} {a v : Word} (h : ud.long = some (a, v)) (b : Word) :
    readStack (commit s ud) b = readStack (writeStackLong (commitMem ud s) a v) b := by
  simp only [readStack, commit_stack, commitLong, h]

/-- Where no long write goes, a byte of the stack is the one the single write left. -/
theorem readStack_commit_outside_long (s : State) {ud : Descriptor} {b : Word}
    (h : ∀ a v, ud.long = some (a, v) → b ≠ a ∧ b ≠ a + 1#16) :
    readStack (commit s ud) b = readStack (commitMem ud s) b := by
  cases hlong : ud.long with
  | none => simp only [readStack, commit_stack, commitLong, hlong]
  | some write =>
    obtain ⟨hhigh, hlow⟩ := h write.1 write.2 hlong
    rw [readStack_commit_of_long s hlong, readStack_writeStackLong_ne _ _ hhigh hlow]

theorem readStack_commitMem_same (s : State) {ud : Descriptor} {a : Word} {v : Byte} (h : ud.mem = some (a, v)) :
    readStack (commitMem ud s) a = v := by
  simp only [commitMem, h]
  rw [readStack_writeStack, if_pos rfl]

theorem readStack_commitMem_ne (s : State) {ud : Descriptor} {b : Word} (h : ∀ a v, ud.mem = some (a, v) → b ≠ a) :
    readStack (commitMem ud s) b = readStack s b := by
  cases hmem : ud.mem with
  | none => simp only [commitMem, hmem]
  | some write =>
    simp only [commitMem, hmem]
    rw [readStack_writeStack, if_neg (h write.1 write.2 hmem)]

/-- Settles O22: the two bytes of the long write, then the byte of the single write where the long write does not go,
then the old byte. -/
theorem commitWritesStackBytes : Obligations.CommitWritesStackBytes := by
  unfold Obligations.CommitWritesStackBytes
  refine fun s ud b => ⟨fun a v hlong hb => ?_, fun a v hlong hb => ?_,
    fun hout => ⟨fun a v hmem hb => ?_, fun hmem => ?_⟩⟩
  · rw [readStack_commit_of_long s hlong, hb, readStack_writeStackLong_high]
  · rw [readStack_commit_of_long s hlong, hb, readStack_writeStackLong_low]
  · rw [readStack_commit_outside_long s hout, hb, readStack_commitMem_same s hmem]
  · rw [readStack_commit_outside_long s hout, readStack_commitMem_ne s hmem]

end Sys2Proof.Machine
end

section
/-! The execute stage of each instruction as one function, and what execute, commit and the termination check can do
together (R205 to R207). -/

namespace Sys2Proof.Machine

/-- The execute stage of an instruction, apart from its commit. -/
def execution (i : Instr) (s : State) : Execution :=
  match i with
  | .label id => runLabel id s
  | .cpc d r => runCpc d r s
  | .sbc d r => runSbc d r s
  | .ldi d k => runLdi d k s

theorem exec_eq_complete (i : Instr) (s : State) : exec i s = complete s (execution i s) := by
  cases i <;> rfl

/-- The execute stage fails in one way only: an operand is out of its range. -/
theorem execution_cases (i : Instr) (s : State) :
    (∃ ud, execution i s = .ok ud) ∨ execution i s = .error (.malformedOperands i) := by
  cases i with
  | label id =>
    simp only [execution, runLabel]
    split
    · exact .inl ⟨_, rfl⟩
    · exact .inr rfl
  | cpc d r =>
    simp only [execution, runCpc]
    split
    · exact .inl ⟨_, rfl⟩
    · exact .inr rfl
    · exact .inr rfl
  | sbc d r =>
    simp only [execution, runSbc]
    split
    · exact .inl ⟨_, rfl⟩
    · exact .inr rfl
    · exact .inr rfl
  | ldi d k =>
    simp only [execution, runLdi]
    split
    · exact .inl ⟨_, rfl⟩
    · exact .inr rfl
    · exact .inr rfl

/-- The end of a step: the instruction completes and the termination check follows, or its operands are out of range and
the state stays as it is. -/
theorem runInstr_cases (i : Instr) (s : State) :
    (∃ v, exec i s = .next v ∧ runInstr i s = ⟨terminationCheck v, .ok⟩) ∨
    runInstr i s = ⟨s, .err (.malformedOperands i)⟩ := by
  unfold runInstr
  rw [exec_eq_complete]
  rcases execution_cases i s with ⟨ud, h⟩ | h <;> rw [h]
  · exact .inl ⟨commit s ud, rfl, rfl⟩
  · exact .inr rfl

end Sys2Proof.Machine
end

section
/-! What a completed step from a Running state does to the pc and the termination flag (R202, R207). -/

namespace Sys2Proof.Machine

/-! ### The loop's stages -/

@[simp] theorem loopGuard_pc (i : Instr) (s : State) : (loopGuard i s).state.pc = s.pc := by
  rcases loopGuard_cases i s with h | ⟨id, -, -, ⟨-, h⟩ | ⟨n, -, -, h⟩ | ⟨n, -, -, h⟩⟩ <;> simp [h]

@[simp] theorem loopGuard_finished (i : Instr) (s : State) : (loopGuard i s).state.finished = s.finished := by
  rcases loopGuard_cases i s with h | ⟨id, -, -, ⟨-, h⟩ | ⟨n, -, -, h⟩ | ⟨n, -, -, h⟩⟩ <;> simp [h]

/-- Every instruction of the core is non-branching. -/
theorem exec_pc {i : Instr} {s t : State} (h : exec i s = .next t) : t.pc = nextPc s := by
  rcases exec_cases h with ⟨_, _, rfl⟩ | ⟨_, _, _, rfl⟩ | ⟨_, _, _, rfl⟩ | ⟨_, _, _, _, rfl⟩ <;> rfl

theorem exec_finished {i : Instr} {s t : State} (h : exec i s = .next t) : t.finished = s.finished := by
  rcases exec_cases h with ⟨_, _, rfl⟩ | ⟨_, _, _, rfl⟩ | ⟨_, _, _, rfl⟩ | ⟨_, _, _, _, rfl⟩ <;>
    exact commit_finished _ _

theorem programLength_eq_of_cfg {s t : State} (h : t.cfg = s.cfg) : programLength t = programLength s := by
  simp only [programLength, h]

theorem atEnd_iff (s : State) : atEnd s = true ↔ programLength s ≤ s.pc.toNat ∨ s.pc = 0xFFFF#16 := by
  simp [atEnd, Config.sentinel]

/-- From a Running state the termination check alone decides whether the run is Finished. -/
theorem terminationCheck_finished_iff {s : State} (h : s.finished = false) :
    (terminationCheck s).finished = true ↔ programLength s ≤ s.pc.toNat ∨ s.pc = 0xFFFF#16 := by
  rw [terminationCheck_finished, h, Bool.or_false, atEnd_iff]

/-! ### The step request, one equation per ending -/

theorem request_of_finished {s : State} (h : s.finished = true) : request s = ⟨s, .ok⟩ := by
  rw [request, if_pos h]

theorem request_of_fetch_none {s : State} (hrun : s.finished = false) (hfetch : fetch s = none) :
    request s = ⟨finish s, .ok⟩ := by
  simp [request, hrun, hfetch]

theorem request_of_reserved {s : State} {w : Word} (hrun : s.finished = false) (hfetch : fetch s = some w)
    (hdec : decode w = .reserved) : request s = abandon s (.malformedInstruction s.pc w) := by
  simp [request, hrun, hfetch, hdec]

theorem request_of_instr {s : State} {w : Word} {i : Instr} (hrun : s.finished = false) (hfetch : fetch s = some w)
    (hdec : decode w = .instr i) : request s = runGuarded i s := by
  simp [request, hrun, hfetch, hdec]

theorem step_eq_next_iff (s t : State) : step s = .next t ↔ request s = ⟨t, .ok⟩ := by
  unfold step replyOutcome
  cases h : request s with
  | mk u status => cases status <;> simp

theorem runInstr_eq_ok {i : Instr} {s t : State} (h : runInstr i s = ⟨t, .ok⟩) :
    ∃ v, exec i s = .next v ∧ t = terminationCheck v := by
  rcases runInstr_cases i s with ⟨v, hexec, hrun⟩ | hrun <;> rw [hrun] at h
  · cases h
    exact ⟨v, hexec, rfl⟩
  · cases h

/-- A step that completes from a Running state below `N`: the fetched instruction passed the guard, ran from the state
the guard left, and the termination check came after. -/
theorem step_next_cases {s t : State} (hrun : s.finished = false) (hin : s.pc.toNat < programLength s)
    (h : step s = .next t) :
    ∃ w i v, fetch s = some w ∧ decode w = .instr i ∧ (loopGuard i s).status = .ok ∧
      exec i (loopGuard i s).state = .next v ∧ t = terminationCheck v := by
  rw [step_eq_next_iff] at h
  rcases request_cases s with ⟨hfin, -⟩ | ⟨-, hnone, -⟩ | ⟨-, w, -, -, hreq⟩ |
    ⟨-, w, i, hw, hi, ⟨hpass, hreq⟩ | ⟨id, hfail, hreq⟩⟩
  · simp [hrun] at hfin
  · have := (fetch_eq_none_iff s).mp hnone
    omega
  · simp [hreq] at h
  · obtain ⟨v, hexec, ht⟩ := runInstr_eq_ok (hreq.symm.trans h)
    exact ⟨w, i, v, hw, hi, hpass, hexec, ht⟩
  · simp [← hreq, h] at hfail

/-- A completed step from below `N` is the termination check of a Running state that is one index further on. -/
theorem step_next_eq_terminationCheck {s t : State} (hrun : s.finished = false)
    (hin : s.pc.toNat < programLength s) (h : step s = .next t) :
    ∃ v, t = terminationCheck v ∧ v.finished = false ∧ v.pc = s.pc + 1#16 ∧ v.cfg = s.cfg := by
  obtain ⟨w, i, v, -, -, -, hexec, ht⟩ := step_next_cases hrun hin h
  refine ⟨v, ht, ?_, ?_, ?_⟩
  · rw [exec_finished hexec, loopGuard_finished, hrun]
  · rw [exec_pc hexec, nextPc, loopGuard_pc]
  · rw [exec_cfg hexec, loopGuard_cfg]

/-- R207 at the end of a completed step. -/
theorem step_next_finished_iff {s t : State} (hrun : s.finished = false) (hin : s.pc.toNat < programLength s)
    (h : step s = .next t) : t.finished = true ↔ programLength t ≤ t.pc.toNat ∨ t.pc = 0xFFFF#16 := by
  obtain ⟨v, rfl, hv, -, -⟩ := step_next_eq_terminationCheck hrun hin h
  rw [terminationCheck_finished_iff hv, terminationCheck_pc, programLength_eq_of_cfg (terminationCheck_cfg v)]

/-- Below `N <= 0xFFFF` the pc of a completed step does not wrap, and `N` is as before. -/
theorem step_next_pc {s t : State} (hrun : s.finished = false) (hN : programLength s ≤ 0xFFFF)
    (hin : s.pc.toNat < programLength s) (h : step s = .next t) :
    t.pc.toNat = s.pc.toNat + 1 ∧ programLength t = programLength s := by
  obtain ⟨v, rfl, -, hpc, hcfg⟩ := step_next_eq_terminationCheck hrun hin h
  refine ⟨?_, programLength_eq_of_cfg ((terminationCheck_cfg v).trans hcfg)⟩
  rw [terminationCheck_pc, hpc, BitVec.toNat_add, BitVec.toNat_ofNat]
  omega

theorem sentinel_outOfBounds {s : State} (hN : programLength s ≤ 0xFFFF) (hpc : s.pc = 0xFFFF#16) :
    programLength s ≤ s.pc.toNat := by
  rw [hpc]
  exact hN

/-! ### The obligations -/

/-- Settles O28: an out-of-bounds fetch only finishes the run, and the termination check leaves no Running state out of
bounds. -/
theorem fetchOutOfBoundsFinishes : Obligations.FetchOutOfBoundsFinishes := by
  unfold Obligations.FetchOutOfBoundsFinishes
  refine fun s hrun => ⟨fun hout => ?_, sentinel_outOfBounds, fun hin => List.getElem?_eq_getElem hin,
    fun t hin hstep ht => ?_⟩
  · have hreq : request s = ⟨finish s, .ok⟩ := request_of_fetch_none hrun ((fetch_eq_none_iff s).mpr hout)
    exact ⟨hreq, (step_eq_next_iff s _).mpr hreq⟩
  · by_contra hout
    have hfin := (step_next_finished_iff hrun hin hstep).mpr (.inl (Nat.le_of_not_lt hout))
    simp [ht] at hfin

/-- Settles O32: commit keeps `finished` and `N`, so the check decides on the new pc; a step of the core moves the pc by
one, which reaches `N` from `N - 1` only. -/
theorem terminationCheckAfterCommit : Obligations.TerminationCheckAfterCommit := by
  unfold Obligations.TerminationCheckAfterCommit
  refine ⟨fun s ud hrun => ?_, fun s => sentinel_outOfBounds, fun s t hrun hN hin hstep => ?_⟩
  · rw [terminationCheck_finished_iff ((commit_finished s ud).trans hrun), commit_pc,
      programLength_eq_of_cfg (commit_cfg s ud)]
  · have hfin := step_next_finished_iff hrun hin hstep
    obtain ⟨hpc, hlen⟩ := step_next_pc hrun hN hin hstep
    refine ⟨hfin, hfin.trans ⟨fun hend => ?_, fun hlast => .inl (by omega)⟩⟩
    have hout : programLength t ≤ t.pc.toNat := hend.elim id (sentinel_outOfBounds (hlen.trans_le hN))
    omega

end Sys2Proof.Machine
end

section
/-! Finished is terminal for step requests, and no error enters it (R208). -/

namespace Sys2Proof.Machine

theorem requests_of_finished {s : State} (h : s.finished = true) (n : Nat) : requests n s = s :=
  requests_keep (P := (· = s)) (fun t ht => by rw [ht, request_of_finished h]) n s rfl

/-- A host that only sends step requests sees the states of `requests`, whatever status it started from. -/
theorem drive_steps_state (n : Nat) : ∀ r : Reply, (drive r (List.replicate n .step)).state = requests n r.state := by
  induction n with
  | zero => exact fun _ => rfl
  | succ n ih => exact fun r => ih (respond r .step)

/-- A failed execute stage leaves the state it started from (R205). -/
theorem runInstr_state_of_err {i : Instr} {s : State} {f : Fault} (h : (runInstr i s).status = .err f) :
    (runInstr i s).state = s := by
  rcases runInstr_cases i s with ⟨v, -, hrun⟩ | hrun <;> rw [hrun] at h ⊢
  cases h

theorem request_err_running {s : State} {f : Fault} (h : (request s).status = .err f) :
    (request s).state.finished = false := by
  rcases request_cases s with ⟨-, hreq⟩ | ⟨-, -, hreq⟩ | ⟨hrun, w, -, -, hreq⟩ |
    ⟨hrun, w, i, -, -, ⟨-, hreq⟩ | ⟨id, -, hreq⟩⟩
  · simp [hreq] at h
  · simp [hreq] at h
  · rw [hreq]
    exact hrun
  · rw [hreq] at h ⊢
    rw [runInstr_state_of_err h, loopGuard_finished, hrun]
  · rw [hreq, loopGuard_finished, hrun]

/-- Settles O33: a request on a Finished state is the identity, reset clears the flag, and both error endings leave it
clear. -/
theorem finishedIsTerminal : Obligations.FinishedIsTerminal := by
  unfold Obligations.FinishedIsTerminal
  refine ⟨fun s n hfin => ?_, fun r p => rfl, fun s f h => request_err_running h⟩
  have hkeep := requests_of_finished hfin n
  refine ⟨hkeep, ?_, fun r => (drive_steps_state n ⟨s, r⟩).trans hkeep⟩
  simp [running, hkeep, hfin]

end Sys2Proof.Machine
end

section
/-! The two modes (R209): a step reads the counters and the mode in the loop guard only, so every other stage commutes
with replacing them. -/

namespace Sys2Proof.Machine

/-- `s` with other counters and another mode. -/
def State.inMode (s : State) (guard : List (Nat × Nat)) (batch : Bool) : State :=
  { s with guard := guard, cfg := { s.cfg with batch := batch } }

/-! ### The execute stage and commit -/

/-- No execute stage reads a counter or the mode. -/
theorem execution_inMode (i : Instr) (s : State) (g : List (Nat × Nat)) (b : Bool) :
    execution i (s.inMode g b) = execution i s := by
  cases i <;> rfl

theorem commit_inMode (s : State) (ud : Descriptor) (g : List (Nat × Nat)) (b : Bool) :
    commit (s.inMode g b) ud = (commit s ud).inMode g b := by
  obtain ⟨regs, mem, flags, sp, long, pc⟩ := ud
  cases mem <;> cases long <;> rfl

theorem terminationCheck_inMode (s : State) (g : List (Nat × Nat)) (b : Bool) :
    terminationCheck (s.inMode g b) = (terminationCheck s).inMode g b := by
  have hend : atEnd (s.inMode g b) = atEnd s := rfl
  unfold terminationCheck
  rw [hend]
  split <;> rfl

theorem runInstr_inMode (i : Instr) (s : State) (g : List (Nat × Nat)) (b : Bool) :
    runInstr i (s.inMode g b) = ⟨(runInstr i s).state.inMode g b, (runInstr i s).status⟩ := by
  unfold runInstr
  rw [exec_eq_complete, exec_eq_complete, execution_inMode]
  cases execution i s with
  | ok ud => simp only [complete, commit_inMode, terminationCheck_inMode]
  | error f => rfl

/-! ### The guard stage -/

theorem loopGuard_of_interactive (i : Instr) {s : State} (h : s.cfg.batch = false) : loopGuard i s = ⟨s, .ok⟩ := by
  rcases loopGuard_cases i s with hg | ⟨id, -, hbatch, -⟩
  · exact hg
  · simp [h] at hbatch

/-- The guard stage changes counters only, so replacing the counters undoes it. -/
theorem loopGuard_state_inMode (i : Instr) (s : State) (g : List (Nat × Nat)) (b : Bool) :
    (loopGuard i s).state.inMode g b = s.inMode g b := by
  rcases loopGuard_cases i s with h | ⟨id, -, -, ⟨-, h⟩ | ⟨n, -, -, h⟩ | ⟨n, -, -, h⟩⟩ <;> rw [h] <;> rfl

theorem runGuarded_of_interactive (i : Instr) {s : State} (h : s.cfg.batch = false) :
    runGuarded i s = runInstr i s := by
  rw [runGuarded, loopGuard_of_interactive i h]

/-! ### The whole step -/

theorem exec_guard {i : Instr} {s t : State} (h : exec i s = .next t) : t.guard = s.guard := by
  rcases exec_cases h with ⟨_, _, rfl⟩ | ⟨_, _, _, rfl⟩ | ⟨_, _, _, rfl⟩ | ⟨_, _, _, _, rfl⟩ <;>
    exact commit_guard _ _

@[simp] theorem runInstr_guard (i : Instr) (s : State) : (runInstr i s).state.guard = s.guard := by
  rcases runInstr_cases i s with ⟨v, hexec, hrun⟩ | hrun <;> rw [hrun]
  rw [terminationCheck_guard, exec_guard hexec]

theorem runInstr_status_ne_runtimeError (i : Instr) (s : State) (id : LabelId) :
    (runInstr i s).status ≠ .err (.runtimeError id) := by
  rcases runInstr_cases i s with ⟨v, -, hrun⟩ | hrun <;> simp [hrun]

/-- In interactive mode a step request writes no counter and is no Runtime-Error: only the guard stage does either. -/
theorem request_of_interactive {s : State} (h : s.cfg.batch = false) :
    (request s).state.guard = s.guard ∧ ∀ id, (request s).status ≠ .err (.runtimeError id) := by
  rcases request_cases s with ⟨-, hreq⟩ | ⟨-, -, hreq⟩ | ⟨-, w, -, -, hreq⟩ |
    ⟨-, w, i, -, -, ⟨-, hreq⟩ | ⟨id, hfail, -⟩⟩
  · simp [hreq]
  · simp [hreq]
  · simp [hreq]
  · rw [hreq, loopGuard_of_interactive i h]
    exact ⟨runInstr_guard i s, runInstr_status_ne_runtimeError i s⟩
  · simp [loopGuard_of_interactive i h] at hfail

/-- A step that is no Runtime-Error does the same in interactive mode, but for the counters and the mode. -/
theorem request_inMode_interactive {s : State} (h : ∀ id, (request s).status ≠ .err (.runtimeError id))
    (g : List (Nat × Nat)) :
    request (s.inMode g false) = ⟨(request s).state.inMode g false, (request s).status⟩ := by
  rcases request_cases s with ⟨hfin, hreq⟩ | ⟨hrun, hnone, hreq⟩ | ⟨hrun, w, hw, hres, hreq⟩ |
    ⟨hrun, w, i, hw, hi, ⟨-, hreq⟩ | ⟨id, hfail, hreq⟩⟩
  · rw [hreq]
    exact request_of_finished hfin
  · rw [hreq]
    exact request_of_fetch_none hrun hnone
  · rw [hreq]
    exact request_of_reserved hrun hw hres
  · calc request (s.inMode g false)
        = runGuarded i (s.inMode g false) := request_of_instr hrun hw hi
      _ = runInstr i (s.inMode g false) := runGuarded_of_interactive i rfl
      _ = runInstr i ((loopGuard i s).state.inMode g false) := by rw [loopGuard_state_inMode]
      _ = _ := by rw [runInstr_inMode, hreq]
  · rw [hreq] at h
    exact (h id hfail).elim

/-- The same step in the two modes of one state, where batch mode meets no Runtime-Error. -/
theorem request_interactive_eq_batch (s : State)
    (h : ∀ id, (request (s.inMode s.guard true)).status ≠ .err (.runtimeError id)) :
    (request (s.inMode s.guard false)).status = (request (s.inMode s.guard true)).status ∧
    (request (s.inMode s.guard false)).state =
      { (request (s.inMode s.guard true)).state with guard := s.guard, cfg := { s.cfg with batch := false } } := by
  have hcfg : (request (s.inMode s.guard true)).state.cfg = (s.inMode s.guard true).cfg := request_cfg _
  have hreq : request (s.inMode s.guard false) =
      ⟨(request (s.inMode s.guard true)).state.inMode s.guard false, (request (s.inMode s.guard true)).status⟩ :=
    request_inMode_interactive h s.guard
  rw [hreq]
  refine ⟨rfl, ?_⟩
  rw [State.inMode, hcfg]
  rfl

/-- Settles O34: only the guard stage looks at the mode, and in interactive mode it does nothing. -/
theorem interactiveModeSkipsTheGuard : Obligations.InteractiveModeSkipsTheGuard := by
  unfold Obligations.InteractiveModeSkipsTheGuard
  exact ⟨fun s h => request_of_interactive h, fun s => request_interactive_eq_batch s⟩

end Sys2Proof.Machine
end

section
/-! The encoder is the decoder's inverse (30_encoding.md R99): a word is its opcode bits and its operand fields, and
decoding splits it where encoding joins it. -/

namespace Sys2Proof.Machine

/-! ### A field that reaches up to bit 15, as a mask and a pattern -/

theorem and_placed_allOnes (w : Word) {lo len : Nat} (htop : lo + len = 16) :
    w &&& placed (BitVec.allOnes len) lo = placed (bitsAt w lo len) lo := by
  apply BitVec.eq_of_getLsbD_eq
  intro k hk
  by_cases hlo : k < lo
  · simp [placed, hlo]
  · have hbit : lo + (k - lo) = k := by omega
    have hlen : k - lo < len := by omega
    simp [placed, bitsAt, hlo, hk, hbit, hlen]

theorem bitsAt_placed {lo len : Nat} (htop : lo + len = 16) (v : BitVec len) : bitsAt (placed v lo) lo len = v := by
  apply BitVec.eq_of_getLsbD_eq
  intro k hk
  have hlo : lo + k < 16 := by omega
  simp [placed, bitsAt, hk, hlo]

/-- A word has the pattern `v` in its top field exactly when it lies under that field's mask and pattern. -/
theorem bitsAt_eq_iff_and (w : Word) {lo len : Nat} (htop : lo + len = 16) (v : BitVec len) :
    bitsAt w lo len = v ↔ w &&& placed (BitVec.allOnes len) lo = placed v lo := by
  rw [and_placed_allOnes w htop]
  refine ⟨fun h => by rw [h], fun h => ?_⟩
  rw [← bitsAt_placed htop (bitsAt w lo len), h, bitsAt_placed htop]

/-! ### Operand fields, joined -/

theorem placed_labelField (w : Word) : placed (labelField w) 0 = w &&& 0x00FF#16 := by
  apply BitVec.eq_of_getLsbD_eq
  intro k hk
  interval_cases k <;> simp [placed, labelField_getLsbD, -BitVec.getLsbD_eq_getElem]

theorem rrOperands_of_word (w : Word) : rrOperands (rrDest w) (rrSource w) = w &&& 0x03FF#16 := by
  apply BitVec.eq_of_getLsbD_eq
  intro k hk
  interval_cases k <;> simp [rrOperands, placed, rrDest_getLsbD, rrSource_getLsbD, -BitVec.getLsbD_eq_getElem]

theorem riOperands_of_word (w : Word) : riOperands (bitsAt w 4 4) (riImmediate w) = w &&& 0x0FFF#16 := by
  apply BitVec.eq_of_getLsbD_eq
  intro k hk
  interval_cases k <;> simp [riOperands, placed, bitsAt, riImmediate_getLsbD, -BitVec.getLsbD_eq_getElem]

/-! ### Operand fields, split again below any opcode bits -/

theorem labelField_placed (id : LabelId) : labelField (placed id 0) = id := by
  apply BitVec.eq_of_getLsbD_eq
  intro k hk
  interval_cases k <;> simp [placed, labelField_getLsbD, -BitVec.getLsbD_eq_getElem]

theorem rrDest_or_rrOperands (op : BitVec 6) (d r : BitVec 5) : rrDest (placed op 10 ||| rrOperands d r) = d := by
  apply BitVec.eq_of_getLsbD_eq
  intro k hk
  interval_cases k <;> simp [rrDest_getLsbD, rrOperands, placed, -BitVec.getLsbD_eq_getElem]

theorem rrSource_or_rrOperands (op : BitVec 6) (d r : BitVec 5) : rrSource (placed op 10 ||| rrOperands d r) = r := by
  apply BitVec.eq_of_getLsbD_eq
  intro k hk
  interval_cases k <;> simp [rrSource_getLsbD, rrOperands, placed, -BitVec.getLsbD_eq_getElem]

theorem riRegister_or_riOperands (op dd : BitVec 4) (k : Byte) :
    bitsAt (placed op 12 ||| riOperands dd k) 4 4 = dd := by
  apply BitVec.eq_of_getLsbD_eq
  intro j hj
  interval_cases j <;> simp [bitsAt, riOperands, placed]

theorem riImmediate_or_riOperands (op dd : BitVec 4) (k : Byte) :
    riImmediate (placed op 12 ||| riOperands dd k) = k := by
  apply BitVec.eq_of_getLsbD_eq
  intro j hj
  interval_cases j <;> simp [riImmediate_getLsbD, riOperands, placed, -BitVec.getLsbD_eq_getElem]

/-! ### Well-formed instructions are those whose operands fit their fields -/

theorem range_iff_field (len : Nat) (n : Int) : 0 ≤ n ∧ n < 2 ^ len ↔ ∃ v : BitVec len, n = v.toNat := by
  constructor
  · rintro ⟨hlow, hhigh⟩
    obtain ⟨m, rfl⟩ := Int.eq_ofNat_of_zero_le hlow
    have hm : m < 2 ^ len := by exact_mod_cast hhigh
    exact ⟨BitVec.ofNat len m, by rw [BitVec.toNat_ofNat, Nat.mod_eq_of_lt hm]⟩
  · rintro ⟨v, rfl⟩
    exact ⟨Int.natCast_nonneg _, by exact_mod_cast v.isLt⟩

theorem isGeneralReg_iff_field (n : Int) : isGeneralReg n = true ↔ ∃ v : BitVec 5, n = v.toNat := by
  rw [← range_iff_field, isGeneralReg, Bool.and_eq_true, decide_eq_true_eq, decide_eq_true_eq]
  omega

theorem isImmediate_iff_field (n : Int) : isImmediate n = true ↔ ∃ v : Byte, n = v.toNat := by
  rw [← range_iff_field, isImmediate, Bool.and_eq_true, decide_eq_true_eq, decide_eq_true_eq]
  omega

theorem isLabelId_iff_field (n : Int) : isLabelId n = true ↔ ∃ v : LabelId, n = v.toNat := isImmediate_iff_field n

theorem isUpperReg_iff_field (n : Int) : isUpperReg n = true ↔ ∃ v : BitVec 4, n = 16 + v.toNat := by
  have hfield := range_iff_field 4 (n - 16)
  simp only [sub_eq_iff_eq_add'] at hfield
  rw [← hfield, isUpperReg, Bool.and_eq_true, decide_eq_true_eq, decide_eq_true_eq]
  omega

/-- An instruction is well formed exactly when each operand is the value of its field (R92 to R94, R120). -/
theorem wellFormed_iff_fields (i : Instr) : i.wellFormed = true ↔
    (∃ id : LabelId, i = .label id.toNat) ∨ (∃ d r : BitVec 5, i = .cpc d.toNat r.toNat) ∨
    (∃ d r : BitVec 5, i = .sbc d.toNat r.toNat) ∨
    (∃ (dd : BitVec 4) (k : Byte), i = .ldi (16 + dd.toNat) k.toNat) := by
  cases i with
  | label id => simp [Instr.wellFormed, isLabelId_iff_field]
  | cpc d r => simp [Instr.wellFormed, isGeneralReg_iff_field]
  | sbc d r => simp [Instr.wellFormed, isGeneralReg_iff_field]
  | ldi d k => simp [Instr.wellFormed, isUpperReg_iff_field, isImmediate_iff_field]

/-! ### The word of each well-formed instruction -/

theorem encode_label_field (id : LabelId) : encode (.label id.toNat) = placed id 0 := by
  simp [encode, BitVec.ofInt_natCast]

theorem encode_cpc_fields (d r : BitVec 5) :
    encode (.cpc d.toNat r.toNat) = placed 0b000001#6 10 ||| rrOperands d r := by
  simp only [encode, BitVec.ofInt_natCast, BitVec.ofNat_toNat, BitVec.setWidth_eq]
  rfl

theorem encode_sbc_fields (d r : BitVec 5) :
    encode (.sbc d.toNat r.toNat) = placed 0b000010#6 10 ||| rrOperands d r := by
  simp only [encode, BitVec.ofInt_natCast, BitVec.ofNat_toNat, BitVec.setWidth_eq]
  rfl

theorem encode_ldi_fields (dd : BitVec 4) (k : Byte) :
    encode (.ldi (16 + dd.toNat) k.toNat) = placed 0b1110#4 12 ||| riOperands dd k := by
  simp only [encode, add_sub_cancel_left, BitVec.ofInt_natCast, BitVec.ofNat_toNat, BitVec.setWidth_eq]
  rfl

/-! ### Each row of the opcode map: its words decode to its mnemonic and to nothing else -/

theorem decode_label {w : Word} (h : bitsAt w 8 8 = 0x00#8) : decode w = .instr (.label (labelField w).toNat) := by
  rw [decode, if_pos h]

theorem decode_label_iff (w : Word) : (∃ id, decode w = .instr (.label id)) ↔ bitsAt w 8 8 = 0x00#8 := by
  refine ⟨fun ⟨id, hid⟩ => ?_, fun h => ⟨_, decode_label h⟩⟩
  rcases decode_cases w with ⟨h, -⟩ | ⟨-, h⟩ | ⟨-, h⟩ | ⟨-, h⟩ | ⟨-, -, -, -, h⟩
  · exact h
  all_goals simp [h] at hid

theorem decode_cpc_iff (w : Word) : (∃ d r, decode w = .instr (.cpc d r)) ↔ bitsAt w 10 6 = 0b000001#6 := by
  refine ⟨fun ⟨d, r, hdr⟩ => ?_, fun h => ⟨_, _, decode_cpc h⟩⟩
  rcases decode_cases w with ⟨-, h⟩ | ⟨h, -⟩ | ⟨-, h⟩ | ⟨-, h⟩ | ⟨-, -, -, -, h⟩
  case inr.inl => exact h
  all_goals simp [h] at hdr

theorem decode_sbc_iff (w : Word) : (∃ d r, decode w = .instr (.sbc d r)) ↔ bitsAt w 10 6 = 0b000010#6 := by
  refine ⟨fun ⟨d, r, hdr⟩ => ?_, fun h => ⟨_, _, decode_sbc h⟩⟩
  rcases decode_cases w with ⟨-, h⟩ | ⟨-, h⟩ | ⟨h, -⟩ | ⟨-, h⟩ | ⟨-, -, -, -, h⟩
  case inr.inr.inl => exact h
  all_goals simp [h] at hdr

theorem decode_ldi_iff (w : Word) : (∃ d k, decode w = .instr (.ldi d k)) ↔ bitsAt w 12 4 = 0b1110#4 := by
  refine ⟨fun ⟨d, k, hdk⟩ => ?_, fun h => ⟨_, _, decode_ldi h⟩⟩
  rcases decode_cases w with ⟨-, h⟩ | ⟨-, h⟩ | ⟨-, h⟩ | ⟨h, -⟩ | ⟨-, -, -, -, h⟩
  case inr.inr.inr.inl => exact h
  all_goals simp [h] at hdk

theorem decode_reserved_iff (w : Word) : decode w = .reserved ↔
    bitsAt w 8 8 ≠ 0x00#8 ∧ bitsAt w 10 6 ≠ 0b000001#6 ∧ bitsAt w 10 6 ≠ 0b000010#6 ∧ bitsAt w 12 4 ≠ 0b1110#4 := by
  constructor
  · intro hres
    rcases decode_cases w with ⟨-, h⟩ | ⟨-, h⟩ | ⟨-, h⟩ | ⟨-, h⟩ | ⟨hl, hc, hs, hi, -⟩
    case inr.inr.inr.inr => exact ⟨hl, hc, hs, hi⟩
    all_goals simp [h] at hres
  · rintro ⟨hl, hc, hs, hi⟩
    rw [decode, if_neg hl, if_neg hc, if_neg hs, if_neg hi]

/-! ### The obligations -/

/-- The opcode bits of an encoded instruction are those of its row, whatever its operands. -/
theorem bitsAt_of_fits {row : OpcodeRow} {w : Word} {lo len : Nat} {v : BitVec len} (htop : lo + len = 16)
    (hmask : row.mask = placed (BitVec.allOnes len) lo) (hpattern : row.pattern = placed v lo)
    (h : row.fits w = true) : bitsAt w lo len = v := by
  rw [OpcodeRow.fits, beq_iff_eq, hmask, hpattern] at h
  exact (bitsAt_eq_iff_and w htop v).mpr h

/-- Settles O1: the opcode bits pick the row, and each operand field holds what the encoder placed there. -/
theorem decodeOfEncodeIsTheInstruction : Obligations.DecodeOfEncodeIsTheInstruction := by
  unfold Obligations.DecodeOfEncodeIsTheInstruction
  intro i hi
  rcases (wellFormed_iff_fields i).mp hi with ⟨id, rfl⟩ | ⟨d, r, rfl⟩ | ⟨d, r, rfl⟩ | ⟨dd, k, rfl⟩
  · rw [decode_label (bitsAt_of_fits rfl rfl rfl (Laws.OpcodeBits.label _)), encode_label_field, labelField_placed]
  · rw [decode_cpc (bitsAt_of_fits rfl rfl rfl (Laws.OpcodeBits.cpc _ _)), encode_cpc_fields, rrDest_or_rrOperands,
      rrSource_or_rrOperands]
  · rw [decode_sbc (bitsAt_of_fits rfl rfl rfl (Laws.OpcodeBits.sbc _ _)), encode_sbc_fields, rrDest_or_rrOperands,
      rrSource_or_rrOperands]
  · rw [decode_ldi (bitsAt_of_fits rfl rfl rfl (Laws.OpcodeBits.ldi _ _)), riDest_cast, encode_ldi_fields,
      riRegister_or_riOperands, riImmediate_or_riOperands]

/-- A word is its opcode bits joined with the bits below them. -/
theorem placed_or_and_eq {w : Word} {lo len : Nat} {v : BitVec len} (htop : lo + len = 16) (h : bitsAt w lo len = v)
    {below : Word} (hbelow : placed (BitVec.allOnes len) lo ||| below = BitVec.allOnes 16) :
    placed v lo ||| (w &&& below) = w := by
  rw [← h, ← and_placed_allOnes w htop, ← BitVec.and_or_distrib_left, hbelow, BitVec.and_allOnes]

/-- Settles O2: the decoder's operands fit their fields, and joined with the row's opcode bits they are the word. -/
theorem encodeOfDecodeIsTheWord : Obligations.EncodeOfDecodeIsTheWord := by
  unfold Obligations.EncodeOfDecodeIsTheWord
  intro w i hdec
  rw [wellFormed_iff_fields]
  rcases decode_cases w with ⟨hop, h⟩ | ⟨hop, h⟩ | ⟨hop, h⟩ | ⟨hop, h⟩ | ⟨-, -, -, -, h⟩ <;>
    rw [h] at hdec <;> cases hdec
  · refine ⟨.inl ⟨_, rfl⟩, ?_⟩
    rw [encode_label_field, placed_labelField]
    simpa [placed] using placed_or_and_eq rfl hop (below := 0x00FF#16) (by decide)
  · refine ⟨.inr (.inl ⟨_, _, rfl⟩), ?_⟩
    rw [encode_cpc_fields, rrOperands_of_word, placed_or_and_eq rfl hop (by decide)]
  · refine ⟨.inr (.inr (.inl ⟨_, _, rfl⟩)), ?_⟩
    rw [encode_sbc_fields, rrOperands_of_word, placed_or_and_eq rfl hop (by decide)]
  · rw [riDest_cast]
    refine ⟨.inr (.inr (.inr ⟨_, _, rfl⟩)), ?_⟩
    rw [encode_ldi_fields, riOperands_of_word, placed_or_and_eq rfl hop (by decide)]

/-- Settles O3: each row's field test is its mask and pattern. -/
theorem decoderFollowsTheOpcodeMap : Obligations.DecoderFollowsTheOpcodeMap := by
  unfold Obligations.DecoderFollowsTheOpcodeMap
  intro w
  have hlabel : bitsAt w 8 8 = 0x00#8 ↔ w &&& 0xFF00#16 = 0x0000#16 := bitsAt_eq_iff_and w rfl _
  have hcpc : bitsAt w 10 6 = 0b000001#6 ↔ w &&& 0xFC00#16 = 0x0400#16 := bitsAt_eq_iff_and w rfl _
  have hsbc : bitsAt w 10 6 = 0b000010#6 ↔ w &&& 0xFC00#16 = 0x0800#16 := bitsAt_eq_iff_and w rfl _
  have hldi : bitsAt w 12 4 = 0b1110#4 ↔ w &&& 0xF000#16 = 0xE000#16 := bitsAt_eq_iff_and w rfl _
  rw [decode_label_iff, decode_cpc_iff, decode_sbc_iff, decode_ldi_iff, decode_reserved_iff]
  exact ⟨hlabel, hcpc, hsbc, hldi,
    and_congr hlabel.not (and_congr hcpc.not (and_congr hsbc.not hldi.not))⟩

/-- Settles O4: the sample words, decoded. -/
theorem decoderReadsTheSampleWords : Obligations.DecoderReadsTheSampleWords := by
  unfold Obligations.DecoderReadsTheSampleWords
  decide

end Sys2Proof.Machine
end

section
/-! When exec completes and when it faults (R102, R120, R121, R205): exactly by the operands' ranges. -/

namespace Sys2Proof.Machine

/-- The execute stage looks at nothing but the operands' ranges to decide whether it fails. -/
theorem execution_ok_iff (i : Instr) (s : State) : (∃ ud, execution i s = .ok ud) ↔ i.wellFormed = true := by
  cases i with
  | label id =>
    rw [execution, runLabel, Instr.wellFormed, ← labelId?_isSome]
    cases labelId? id <;> simp [illFormed]
  | cpc d r =>
    rw [execution, runCpc, Instr.wellFormed, ← generalReg?_isSome, ← generalReg?_isSome]
    cases generalReg? d <;> cases generalReg? r <;> simp [illFormed]
  | sbc d r =>
    rw [execution, runSbc, Instr.wellFormed, ← generalReg?_isSome, ← generalReg?_isSome]
    cases generalReg? d <;> cases generalReg? r <;> simp [illFormed]
  | ldi d k =>
    rw [execution, runLdi, Instr.wellFormed, ← upperReg?_isSome, ← immediate?_isSome]
    cases upperReg? d <;> cases immediate? k <;> simp [illFormed]

theorem exec_next_of_wellFormed {i : Instr} (h : i.wellFormed = true) (s : State) : ∃ t, exec i s = .next t := by
  obtain ⟨ud, hud⟩ := (execution_ok_iff i s).mpr h
  exact ⟨commit s ud, by rw [exec_eq_complete, hud, complete]⟩

theorem exec_malformed_iff (i : Instr) (s : State) :
    exec i s = .fault (.malformedOperands i) ↔ ¬i.wellFormed = true := by
  rw [← execution_ok_iff i s, exec_eq_complete]
  rcases execution_cases i s with ⟨ud, h⟩ | h <;> rw [h] <;> simp [complete]

/-- Settles O5: the fault answers exactly the ill-formed instructions, and well-formedness is R120's table. -/
theorem operandsOutOfRangeAreMalformed : Obligations.OperandsOutOfRangeAreMalformed := by
  unfold Obligations.OperandsOutOfRangeAreMalformed
  refine ⟨fun s d r => ?_, fun s d r => ?_, fun s d k => ?_, fun s id => ?_, fun _ => rfl, fun _ => rfl⟩ <;>
    rw [exec_malformed_iff] <;>
    simp only [Instr.wellFormed, isGeneralReg, isUpperReg, isImmediate, isLabelId, Bool.and_eq_true,
      decide_eq_true_eq, and_assoc]

/-- Settles O25: a failure is passed on by `complete`, and the step abandons the state it had. -/
theorem failedExecutionCommitsNothing : Obligations.FailedExecutionCommitsNothing := by
  unfold Obligations.FailedExecutionCommitsNothing
  exact ⟨fun s f => rfl, fun i s f h => by rw [runInstr, h]; rfl⟩

theorem exec_label_id (id : LabelId) (s : State) :
    exec (.label id.toNat) s = .next (commit s (onlyPc (nextPc s))) := execLabel_id id s

theorem commit_onlyPc (s : State) (t : Word) : commit s (onlyPc t) = { s with pc := t } := by
  apply State.ext_fields <;> simp [mergeRegs_noRegWrites]

/-- Settles O9: a marker's descriptor carries the pc only. -/
theorem labelOnlyAdvancesThePc : Obligations.LabelOnlyAdvancesThePc := by
  unfold Obligations.LabelOnlyAdvancesThePc
  exact ⟨fun w h => decode_label h, fun id s => by rw [exec_label_id, commit_onlyPc, nextPc]⟩

end Sys2Proof.Machine
end

section
/-! What an instruction leaves unchanged: its frame, and the one register or the flags it may write. -/

namespace Sys2Proof.Machine

/-- A completed instruction changes registers, flags and the pc only. -/
theorem exec_frame {i : Instr} {s t : State} (h : exec i s = .next t) :
    t = { s with regs := t.regs, flags := t.flags, pc := t.pc } := by
  rcases exec_cases h with ⟨_, _, rfl⟩ | ⟨_, _, _, rfl⟩ | ⟨_, _, _, rfl⟩ | ⟨_, _, _, _, rfl⟩ <;>
    apply State.ext_fields <;> simp

/-- A completed instruction changes at most the register an SBC or an LDI names (R21, R171). -/
theorem exec_readReg {i : Instr} {s t : State} (h : exec i s = .next t) (q : Reg) :
    readReg t q = readReg s q ∨ (∃ r : Int, i = .sbc q.val r) ∨ (16 ≤ q.val ∧ ∃ k : Int, i = .ldi q.val k) := by
  rcases exec_cases h with ⟨_, _, rfl⟩ | ⟨_, _, _, rfl⟩ | ⟨d, r, rfl, rfl⟩ | ⟨d, k, hd, rfl, rfl⟩
  · exact .inl (by simp [readReg_commit])
  · exact .inl (by simp [readReg_commit])
  · by_cases hq : d = q
    · exact .inr (.inl ⟨_, by rw [hq]⟩)
    · exact .inl (by simp [readReg_commit, sbcDescriptor_regs, oneRegWrite_get, Fin.val_inj, hq])
  · by_cases hq : d = q
    · exact .inr (.inr ⟨hq ▸ hd, _, by rw [hq]⟩)
    · exact .inl (by simp [readReg_commit, ldiDescriptor_regs, oneRegWrite_get, Fin.val_inj, hq])

/-- Only CPC and SBC change the flags (R27). -/
theorem exec_flags {i : Instr} {s t : State} (h : exec i s = .next t) :
    t.flags = s.flags ∨ ∃ d r, i = .cpc d r ∨ i = .sbc d r := by
  rcases exec_cases h with ⟨_, _, rfl⟩ | ⟨d, r, rfl, -⟩ | ⟨d, r, rfl, -⟩ | ⟨_, _, _, _, rfl⟩
  · exact .inl (by simp)
  · exact .inr ⟨_, _, .inl rfl⟩
  · exact .inr ⟨_, _, .inr rfl⟩
  · exact .inl (by simp)

/-- No instruction changes H, T or I (R135). -/
theorem exec_keptFlags {i : Instr} {s t : State} (h : exec i s = .next t) :
    t.flags.h = s.flags.h ∧ t.flags.t = s.flags.t ∧ t.flags.i = s.flags.i := by
  rcases exec_cases h with ⟨_, _, rfl⟩ | ⟨_, _, _, rfl⟩ | ⟨_, _, _, rfl⟩ | ⟨_, _, _, _, rfl⟩
  · simp
  · rw [commit_cpc_flags]
    exact ⟨rfl, rfl, rfl⟩
  · rw [commit_sbc_flags]
    exact ⟨rfl, rfl, rfl⟩
  · simp

/-- The part of the frame that all four instructions share, as the host can read it. -/
theorem exec_frame_reads {i : Instr} {s t : State} (h : exec i s = .next t) :
    t.sp = s.sp ∧ (∀ a, readStack t a = readStack s a) ∧ (∀ a, readHeap t a = readHeap s a) ∧
      t.finished = s.finished ∧ (∀ id, guardCount t id = guardCount s id) ∧ t.cfg = s.cfg := by
  rw [exec_frame h]
  exact ⟨rfl, fun _ => rfl, fun _ => rfl, rfl, fun _ => rfl, rfl⟩

/-- Settles O17: CPC names no register and SBC only `d`; H, T, I and the rest is the frame of every instruction. -/
theorem arithmeticFrame : Obligations.ArithmeticFrame := by
  unfold Obligations.ArithmeticFrame
  refine fun d r s t => ⟨fun h => ⟨fun q => ?_, ?_⟩, fun h => ⟨fun q hq => ?_, ?_⟩⟩
  · simpa using exec_readReg h q
  · obtain ⟨hh, ht, hi⟩ := exec_keptFlags h
    exact ⟨hh, ht, hi, exec_frame_reads h⟩
  · simpa [hq.symm] using exec_readReg h q
  · obtain ⟨hh, ht, hi⟩ := exec_keptFlags h
    exact ⟨hh, ht, hi, exec_frame_reads h⟩

/-- Settles O18: LDI names only `d` and LABEL no register, neither is an arithmetic instruction, and the rest is the
frame of every instruction. -/
theorem loadAndMarkerFrame : Obligations.LoadAndMarkerFrame := by
  unfold Obligations.LoadAndMarkerFrame
  refine fun d k id s t => ⟨fun h => ⟨fun q hq => ?_, ?_, exec_frame_reads h⟩,
    fun h => ⟨fun q => ?_, ?_, exec_frame_reads h⟩⟩
  · simpa [hq.symm] using exec_readReg h q
  · simpa using exec_flags h
  · simpa using exec_readReg h q
  · simpa using exec_flags h

end Sys2Proof.Machine
end

section
/-! Commit of any descriptor beyond registers and bytes, the long write read back, the status byte, and reset. -/

namespace Sys2Proof.Machine

/-- Settles O23: each clause is commit's law for that field. -/
theorem commitKeepsLoopStateAndCanonicalStack : Obligations.CommitKeepsLoopStateAndCanonicalStack := by
  unfold Obligations.CommitKeepsLoopStateAndCanonicalStack
  refine fun s ud => ⟨fun v h => ?_, fun h => ?_, commit_finished s ud, fun id => ?_, fun a => ?_, commit_cfg s ud,
    commit_stack_wf ud⟩
  · rw [commit_sp, h, Option.getD_some]
  · rw [commit_sp, h, Option.getD_none]
  · rw [guardCount, commit_guard, guardCount]
  · rw [readHeap, commit_heap, readHeap]

theorem readStackBytes_two (s : State) (a : Word) : readStackBytes s a 2 = [readStack s a, readStack s (a + 1#16)] := by
  simp [readStackBytes, List.range_succ]

/-- Settles O24: the high byte is read at the address and the low byte after it, wrapping as the write does. -/
theorem longWriteIsBigEndian : Obligations.LongWriteIsBigEndian := by
  unfold Obligations.LongWriteIsBigEndian
  refine fun s a v b => ⟨?_, readStack_writeStackLong_ne s v⟩
  rw [readStackBytes_two, readStack_writeStackLong_high, readStack_writeStackLong_low]

/-- The packed byte, one flag after the other from bit 7 down. -/
theorem packFlags_eq_concat (f : Flags) : packFlags f =
    (((((((BitVec.ofBool f.i).concat f.t).concat f.h).concat f.s).concat f.v).concat f.n).concat f.z).concat f.c := rfl

/-- Settles O16: each flag stands as many bits up as flags are appended after it. -/
theorem packedStatusByte : Obligations.PackedStatusByte := by
  unfold Obligations.PackedStatusByte
  intro s
  simp [observe, packFlags_eq_concat, BitVec.getElem_concat]

/-- Settles O39: each clause is reset's law for that field. -/
theorem resetGivesEveryStateItsValue : Obligations.ResetGivesEveryStateItsValue := by
  unfold Obligations.ResetGivesEveryStateItsValue
  refine fun r p => ⟨rfl, fun i => ?_, rfl, rfl, rfl, rfl, rfl, rfl, rfl, rfl, rfl, rfl, fun a => rfl,
    fun himage a => ?_, rfl, rfl, fun id => rfl, fun a => rfl, rfl⟩
  · simp [respond, State.resetWith, readReg]
  · simp [respond, readStack, himage, readByte, lookup]

theorem resetWith_sound {p : RunConfig} (h : cfgWf p = true) : Sound (State.resetWith p) where
  cfg := h
  stack := (Bool.and_eq_true_iff.mp h).2
  heap := rfl
  guardForm := rfl
  guardBound := fun id n hn => by simp [guardCount, lookup] at hn
  guardAbsent := fun _ => rfl
  sign := rfl
  ended := fun hfin => by simp at hfin

/-- Settles O40: `State.reset` is the reset state of the default parameters, which are legal. -/
theorem resetIsSound : Obligations.ResetIsSound := by
  unfold Obligations.ResetIsSound
  exact ⟨fun p => resetWith_sound, resetWith_sound (by decide)⟩

end Sys2Proof.Machine
end

section
/-! The ALU's answer in terms of integers (R128 to R133, R137), and what CPC and SBC leave by it. -/

namespace Sys2Proof.Machine

/-! ### Bytes as integers -/

theorem getLsbD_seven_iff (v : Byte) : v.getLsbD 7 = true ↔ 128 ≤ v.toNat := by
  rw [← BitVec.msb_eq_getLsbD_last (x := v), BitVec.msb_eq_decide, decide_eq_true_eq]

/-- The two readings of a byte differ by 256 where bit 7 is set. -/
theorem toInt_cases (v : Byte) :
    (v.toNat < 128 ∧ v.toInt = v.toNat) ∨ (128 ≤ v.toNat ∧ v.toInt = (v.toNat : Int) - 256) := by
  have := v.isLt
  rw [BitVec.toInt_eq_toNat_cond]
  split <;> omega

/-- The 8-bit result, read as an unsigned number, is the integer modulo 256 (R129). -/
theorem toNat_trunc8 (z : Int) : ((trunc8 z).toNat : Int) = z % 256 := by
  rw [trunc8, BitVec.toNat_ofInt]
  omega

theorem difference_range (a b : Byte) (cin : Bool) : -256 ≤ difference a b cin ∧ difference a b cin ≤ 255 := by
  have := a.isLt
  have := b.isLt
  have := Bool.toNat_le cin
  simp only [difference]
  omega

/-! ### The carry -/

theorem magnitude_signed8 (v : Byte) :
    magnitude .signed8 v = if v.getLsbD 7 then 256 - v.toNat else v.toNat := by
  have := toInt_cases v
  have := v.isLt
  simp only [magnitude, s8, getLsbD_seven_iff]
  split <;> omega

theorem carryFlag_unsigned8 (a b : Byte) : carryFlag .unsigned8 a b = decide (b.toNat > a.toNat) := rfl

/-- Where bit 7 is clear the two choices of `MAG` agree. -/
theorem magnitude_signed8_of_clear {v : Byte} (h : v.getLsbD 7 = false) :
    magnitude .signed8 v = magnitude .unsigned8 v := by
  rw [magnitude_signed8, h]
  rfl

theorem carryFlag_signed8_of_clear {a b : Byte} (ha : a.getLsbD 7 = false) (hb : b.getLsbD 7 = false) :
    carryFlag .signed8 a b = carryFlag .unsigned8 a b := by
  rw [carryFlag, magnitude_signed8_of_clear ha, magnitude_signed8_of_clear hb, carryFlag]

/-- The parameter `MAG` alone decides which magnitudes CPC compares. -/
theorem commit_cpc_carry_withMag (d r : Reg) (s : State) (mag : Mag) :
    (commit { s with cfg := { s.cfg with mag := mag } }
      (cpcDescriptor d r { s with cfg := { s.cfg with mag := mag } })).flags.c =
      carryFlag mag (readReg s d) (readReg s r) := commit_cpc_carry d r _

/-- Settles O12: CPC's carry compares magnitudes, and `MAG` is absolute value or unsigned value. -/
theorem carryUnderEachMagnitude : Obligations.CarryUnderEachMagnitude := by
  unfold Obligations.CarryUnderEachMagnitude
  refine fun d r s => ⟨_, _, exec_cpc_reg d r _, exec_cpc_reg d r _, ?_⟩
  rw [commit_cpc_carry_withMag, commit_cpc_carry_withMag]
  refine ⟨?_, carryFlag_unsigned8 _ _, carryFlag_signed8_of_clear, fun h => ?_⟩
  · rw [carryFlag, magnitude_signed8, magnitude_signed8]
  · rw [h]
    exact ⟨carryFlag_self _ _, carryFlag_self _ _⟩

/-! ### The result and Z -/

/-- The difference of the operands read as signed numbers leaves the same byte. -/
theorem toNat_trunc8_difference_signed (a b : Byte) (cin : Bool) :
    ((trunc8 (difference a b cin)).toNat : Int) = (a.toInt - b.toInt - (cin.toNat : Int)) % 256 := by
  have := toInt_cases a
  have := toInt_cases b
  rw [toNat_trunc8, difference]
  omega

/-- Z has two causes: the difference is 0, or the borrow takes it down to -256. -/
theorem zeroFlag_trunc8_difference_iff (a b : Byte) (cin : Bool) :
    zeroFlag (trunc8 (difference a b cin)) = true ↔ difference a b cin = 0 ∨ difference a b cin = -256 := by
  have hrange := difference_range a b cin
  have hmod := toNat_trunc8 (difference a b cin)
  rw [zeroFlag, beq_iff_eq, ← BitVec.toNat_inj, BitVec.toNat_ofNat]
  omega

theorem difference_eq_neg_256_iff (a b : Byte) (cin : Bool) :
    difference a b cin = -256 ↔ a = 0x00#8 ∧ b = 0xFF#8 ∧ cin = true := by
  have := a.isLt
  have := b.isLt
  rw [← BitVec.toNat_inj, ← BitVec.toNat_inj, BitVec.toNat_ofNat, BitVec.toNat_ofNat]
  cases cin <;> simp only [difference, Bool.toNat_true, Bool.toNat_false, Bool.false_eq_true, and_true, and_false,
    iff_false] <;> omega

theorem cast_toNat_eq_ite (c : Bool) : (c.toNat : Int) = if c then 1 else 0 := by cases c <;> rfl

/-- Settles O13: SBC writes the ALU's result of the integer difference with the old carry as borrow. -/
theorem sbcWritesDifferenceModulo256 : Obligations.SbcWritesDifferenceModulo256 := by
  unfold Obligations.SbcWritesDifferenceModulo256
  intro d r s z hz
  rw [← cast_toNat_eq_ite] at hz ⊢
  obtain rfl : z = difference (readReg s d) (readReg s r) s.flags.c := hz
  refine ⟨_, exec_sbc_reg d r s, ?_⟩
  rw [readReg_commit_sbc, commit_sbc_flags]
  exact ⟨toNat_trunc8 _, toNat_trunc8_difference_signed _ _ _, zeroFlag_trunc8_difference_iff _ _ _,
    difference_eq_neg_256_iff _ _ _⟩

/-! ### V -/

/-- R133's equivalence: the bit-7 rule is the overflow of the signed difference. -/
theorem overflowFlag_iff (a b : Byte) (cin : Bool) :
    overflowFlag a b (trunc8 (difference a b cin)) = true ↔
      a.toInt - b.toInt - (if cin then 1 else 0) < -128 ∨ 127 < a.toInt - b.toInt - (if cin then 1 else 0) := by
  have hresult := toNat_trunc8_difference_signed a b cin
  have hlt := (trunc8 (difference a b cin)).isLt
  have hsigned_a := toInt_cases a
  have hsigned_b := toInt_cases b
  have := a.isLt
  have := b.isLt
  have := Bool.toNat_le cin
  rw [← cast_toNat_eq_ite]
  simp only [overflowFlag, Bool.or_eq_true, Bool.and_eq_true, Bool.not_eq_true', ← Bool.not_eq_true,
    getLsbD_seven_iff]
  omega

/-- Settles O14: V is the ALU's overflow at borrow input 0 for CPC and at the old carry for SBC. -/
theorem overflowIsSignedOverflow : Obligations.OverflowIsSignedOverflow := by
  unfold Obligations.OverflowIsSignedOverflow
  refine fun d r s => ⟨⟨_, exec_cpc_reg d r s, ?_⟩, ⟨_, exec_sbc_reg d r s, ?_⟩⟩
  · rw [commit_cpc_flags]
    have hv := overflowFlag_iff (readReg s d) (readReg s r) false
    rw [if_neg Bool.false_ne_true, sub_zero] at hv
    exact hv
  · rw [commit_sbc_flags]
    exact overflowFlag_iff _ _ _

/-! ### Equal operands -/

/-- Equal operands leave 0x00 or 0xFF, by the borrow input alone. -/
theorem subFlags_self_result (mag : Mag) (a : Byte) (cin : Bool) (f : Flags) :
    (subFlags mag a a cin f).1 = if cin then 0xFF#8 else 0x00#8 := by
  rw [subFlags_result, BitVec.sub_self]
  cases cin <;> rfl

/-- The flags of equal operands: C and V are clear, and the borrow input decides Z, N and S. -/
theorem subFlags_self_flags (mag : Mag) (a : Byte) (cin : Bool) (f : Flags) :
    (subFlags mag a a cin f).2 = { f with c := false, z := !cin, n := cin, v := false, s := cin } := by
  rw [subFlags_eq_flagsByRules, subFlags_self_result]
  cases cin <;> simp [flagsByRules]

/-- Settles O15: both operations commit the ALU's answer on equal operands, CPC at borrow input 0. -/
theorem equalOperandsClearTheCarry : Obligations.EqualOperandsClearTheCarry := by
  unfold Obligations.EqualOperandsClearTheCarry
  refine ⟨fun d r s h => ⟨_, exec_cpc_reg d r s, ?_⟩, fun d s => ⟨_, exec_sbc_reg d d s, ?_⟩⟩
  · rw [commit_cpc_flags, h, subFlags_self_flags]
    exact ⟨rfl, rfl, rfl, rfl, rfl⟩
  · rw [readReg_commit_sbc, commit_sbc_flags, subFlags_self_result, subFlags_self_flags]
    exact ⟨rfl, rfl, rfl, rfl, rfl, rfl⟩

end Sys2Proof.Machine
end

section
/-! The loop guard at a marker as one equation, and everything a step request can do, with no case that cannot happen: a
decoded instruction is well formed, so it never fails to execute. -/

namespace Sys2Proof.Machine

/-! ### One encounter of a marker -/

/-- What an encounter of `id` leaves in its counter: 0 the first time, one more each later time (R204). -/
def nextCount (s : State) (id : LabelId) : Nat := (guardCount s id).elim 0 (· + 1)

theorem nextCount_of_none {s : State} {id : LabelId} (h : guardCount s id = none) : nextCount s id = 0 := by
  rw [nextCount, h]
  rfl

theorem nextCount_of_some {s : State} {id : LabelId} {n : Nat} (h : guardCount s id = some n) :
    nextCount s id = n + 1 := by
  rw [nextCount, h]
  rfl

/-- In batch mode the guard sets the marker's counter, and stops the step where it passes `MAX_JUMPS` (R204). -/
theorem loopGuard_label {s : State} (hbatch : s.cfg.batch = true) (id : LabelId) :
    loopGuard (.label id.toNat) s =
      ⟨setGuard s id (nextCount s id), if nextCount s id ≤ s.cfg.maxJumps then .ok else .err (.runtimeError id)⟩ := by
  simp only [loopGuard, markerId?, labelId?_toNat, hbatch, if_true, countEncounter]
  cases h : guardCount s id with
  | none => simp [nextCount_of_none h]
  | some n =>
    rw [nextCount_of_some h]
    change (if n + 1 > s.cfg.maxJumps then _ else _) = _
    by_cases hn : n + 1 > s.cfg.maxJumps
    · rw [if_pos hn, if_neg (Nat.not_le_of_lt hn), abandon]
    · rw [if_neg hn, if_pos (Nat.le_of_not_lt hn)]

@[simp] theorem guardCount_setGuard_same (s : State) (id : LabelId) (n : Nat) :
    guardCount (setGuard s id n) id = some n := lookup_put_same _ _ _

theorem guardCount_setGuard_ne (s : State) {other id : LabelId} (h : other ≠ id) (n : Nat) :
    guardCount (setGuard s id n) other = guardCount s other :=
  lookup_put_ne (fun heq => h (BitVec.eq_of_toNat_eq heq)) n s.guard

/-- The guard stage changes counters only. -/
theorem loopGuard_frame (i : Instr) (s : State) :
    (loopGuard i s).state = { s with guard := (loopGuard i s).state.guard } := by
  rcases loopGuard_cases i s with h | ⟨id, -, -, ⟨-, h⟩ | ⟨n, -, -, h⟩ | ⟨n, -, -, h⟩⟩ <;> rw [h] <;> rfl

/-! ### One step request -/

/-- The decoder gives well-formed instructions only, and those execute in every state. -/
theorem runInstr_of_decode {w : Word} {i : Instr} (h : decode w = .instr i) (s : State) :
    ∃ v, exec i s = .next v ∧ runInstr i s = ⟨terminationCheck v, .ok⟩ := by
  obtain ⟨v, hv⟩ := exec_next_of_wellFormed (encodeOfDecodeIsTheWord w i h).1 s
  exact ⟨v, hv, by rw [runInstr, hv]⟩

/-- The step of a marker whose counter passes `MAX_JUMPS`. -/
theorem request_of_exceeded {s : State} {w : Word} {id : LabelId} {n : Nat} (hrun : s.finished = false)
    (hbatch : s.cfg.batch = true) (hfetch : fetch s = some w) (hdec : decode w = .instr (.label id.toNat))
    (hcount : guardCount s id = some n) (hmax : s.cfg.maxJumps < n + 1) :
    request s = ⟨setGuard s id (n + 1), .err (.runtimeError id)⟩ := by
  rw [request_of_instr hrun hfetch hdec, runGuarded, loopGuard_label hbatch, nextCount_of_some hcount,
    if_neg (by omega)]

/-- The five endings of a step request, each with the conditions under which it comes: already Finished; out of bounds;
a reserved word; an instruction completed; the loop guard exceeded. -/
theorem request_endings (s : State) :
    (s.finished = true ∧ request s = ⟨s, .ok⟩) ∨
    (s.finished = false ∧ programLength s ≤ s.pc.toNat ∧ request s = ⟨finish s, .ok⟩) ∨
    (s.finished = false ∧ ∃ w, fetch s = some w ∧ decode w = .reserved ∧
      request s = ⟨s, .err (.malformedInstruction s.pc w)⟩) ∨
    (s.finished = false ∧ ∃ w i v, fetch s = some w ∧ decode w = .instr i ∧ (loopGuard i s).status = .ok ∧
      exec i (loopGuard i s).state = .next v ∧ request s = ⟨terminationCheck v, .ok⟩) ∨
    (s.finished = false ∧ ∃ (w : Word) (id : LabelId) (n : Nat), fetch s = some w ∧
      decode w = .instr (.label id.toNat) ∧ s.cfg.batch = true ∧ guardCount s id = some n ∧ s.cfg.maxJumps < n + 1 ∧
      request s = ⟨setGuard s id (n + 1), .err (.runtimeError id)⟩) := by
  rcases request_cases s with hfin | ⟨hrun, hnone, hreq⟩ | hres | ⟨hrun, w, i, hw, hi, ⟨hpass, hreq⟩ | ⟨id, hfail, -⟩⟩
  · exact .inl hfin
  · exact .inr (.inl ⟨hrun, (fetch_eq_none_iff s).mp hnone, hreq⟩)
  · exact .inr (.inr (.inl hres))
  · obtain ⟨v, hexec, hv⟩ := runInstr_of_decode hi (loopGuard i s).state
    exact .inr (.inr (.inr (.inl ⟨hrun, w, i, v, hw, hi, hpass, hexec, hreq.trans hv⟩)))
  · rcases loopGuard_cases i s with h | ⟨id, rfl, hbatch, ⟨-, h⟩ | ⟨n, -, -, h⟩ | ⟨n, hcount, hmax, -⟩⟩
    · simp [h] at hfail
    · simp [h] at hfail
    · simp [h] at hfail
    · exact .inr (.inr (.inr (.inr ⟨hrun, w, id, n, hw, hi, hbatch, hcount, hmax,
        request_of_exceeded hrun hbatch hw hi hcount hmax⟩)))

/-- A step request runs an instruction, or changes nothing but the termination flag and the counters. -/
theorem request_ran_or_kept (s : State) :
    (s.finished = false ∧ ∃ w i v, fetch s = some w ∧ decode w = .instr i ∧
      exec i (loopGuard i s).state = .next v ∧ request s = ⟨terminationCheck v, .ok⟩) ∨
    (request s).state = { s with finished := (request s).state.finished, guard := (request s).state.guard } := by
  rcases request_endings s with ⟨-, hreq⟩ | ⟨-, -, hreq⟩ | ⟨-, w, -, -, hreq⟩ |
    ⟨hrun, w, i, v, hw, hi, -, hexec, hreq⟩ | ⟨-, w, id, n, -, -, -, -, -, hreq⟩
  case inr.inr.inr.inl => exact .inl ⟨hrun, w, i, v, hw, hi, hexec, hreq⟩
  all_goals exact .inr (by simp only [hreq, finish, setGuard])

/-- Settles O19: of the two ways a request can go, only an instruction changes registers, and only SBC and LDI do. -/
theorem registersChangeOnlyBySbcAndLdi : Obligations.RegistersChangeOnlyBySbcAndLdi := by
  unfold Obligations.RegistersChangeOnlyBySbcAndLdi
  intro s q hchange
  rcases request_ran_or_kept s with ⟨hrun, w, i, v, hw, hi, hexec, hreq⟩ | hkept
  · refine ⟨hrun, w, hw, ?_⟩
    rcases exec_readReg hexec q with hq | ⟨r, rfl⟩ | ⟨hq, k, rfl⟩
    · have hsame : readReg (request s).state q = readReg s q := by
        rw [hreq, readReg, terminationCheck_regs, ← readReg, hq, loopGuard_frame]
        rfl
      exact absurd hsame hchange
    · exact .inl ⟨r, hi⟩
    · exact .inr ⟨hq, k, hi⟩
  · rw [hkept] at hchange
    exact absurd rfl hchange

/-- Settles O20: only an instruction changes flags, and only CPC and SBC do; the rest is in every instruction's
frame. -/
theorem flagsChangeOnlyByCpcAndSbc : Obligations.FlagsChangeOnlyByCpcAndSbc := by
  unfold Obligations.FlagsChangeOnlyByCpcAndSbc
  intro s
  rcases request_ran_or_kept s with ⟨hrun, w, i, v, hw, hi, hexec, hreq⟩ | hkept
  · obtain ⟨hh, ht, hI⟩ := exec_keptFlags hexec
    obtain ⟨hsp, hstack, hheap, -⟩ := exec_frame_reads hexec
    have hflags := exec_flags hexec
    rw [loopGuard_frame] at hflags hh ht hI hsp hstack hheap
    simp only [hreq, readStack, readHeap, terminationCheck_flags, terminationCheck_sp, terminationCheck_stack,
      terminationCheck_heap]
    refine ⟨fun hchange => ⟨hrun, w, ?_⟩, hh, ht, hI, hsp, hstack, hheap⟩
    obtain ⟨d, r, rfl | rfl⟩ := hflags.resolve_left hchange
    · exact ⟨d, r, hw, .inl hi⟩
    · exact ⟨d, r, hw, .inr hi⟩
  · rw [hkept]
    exact ⟨fun h => absurd rfl h, rfl, rfl, rfl, rfl, fun _ => rfl, fun _ => rfl⟩

end Sys2Proof.Machine
end

section
/-! The loop guard's counters (R204): one encounter of a marker as a whole step, and `k` encounters at the guard
stage. -/

namespace Sys2Proof.Machine

theorem runInstr_label (id : LabelId) (s : State) :
    runInstr (.label id.toNat) s = ⟨terminationCheck { s with pc := nextPc s }, .ok⟩ := by
  rw [runInstr, exec_label_id, commit_onlyPc]

/-- A marker whose counter lets it pass: the counter is set, and the marker moves the pc. -/
theorem request_of_passed {s : State} {w : Word} {id : LabelId} (hrun : s.finished = false)
    (hbatch : s.cfg.batch = true) (hfetch : fetch s = some w) (hdec : decode w = .instr (.label id.toNat))
    (hmax : nextCount s id ≤ s.cfg.maxJumps) :
    request s = ⟨terminationCheck { setGuard s id (nextCount s id) with pc := nextPc s }, .ok⟩ := by
  rw [request_of_instr hrun hfetch hdec, runGuarded, loopGuard_label hbatch, if_pos hmax]
  exact runInstr_label id _

/-- Whether it passes or not, a marker in batch mode sets its own counter and no other. -/
theorem request_label_guard {s : State} {w : Word} {id : LabelId} (hrun : s.finished = false)
    (hbatch : s.cfg.batch = true) (hfetch : fetch s = some w) (hdec : decode w = .instr (.label id.toNat)) :
    (request s).state.guard = (setGuard s id (nextCount s id)).guard := by
  by_cases hmax : nextCount s id ≤ s.cfg.maxJumps
  · rw [request_of_passed hrun hbatch hfetch hdec hmax, terminationCheck_guard]
  · rw [request_of_instr hrun hfetch hdec, runGuarded, loopGuard_label hbatch, if_neg hmax]

/-- Settles O30: the marker's counter becomes `nextCount`, and the step passes exactly where that is within
`MAX_JUMPS`. -/
theorem loopGuardCountsEncounters : Obligations.LoopGuardCountsEncounters := by
  unfold Obligations.LoopGuardCountsEncounters
  intro s w id hrun hbatch hfetch hdec
  have hguard := request_label_guard hrun hbatch hfetch hdec
  have hcount : guardCount (request s).state id = some (nextCount s id) := by
    rw [guardCount, hguard]
    exact guardCount_setGuard_same s id _
  have hpassed : nextCount s id ≤ s.cfg.maxJumps →
      (request s).status = .ok ∧ (request s).state.pc = s.pc + 1#16 := fun hmax => by
    rw [request_of_passed hrun hbatch hfetch hdec hmax, terminationCheck_pc]
    exact ⟨rfl, rfl⟩
  refine ⟨fun hnone => ?_, fun n hn hmax => ?_, fun n hn hmax => ?_, fun other hne => ?_⟩
  · rw [nextCount_of_none hnone] at hcount hpassed
    obtain ⟨hok, hpc⟩ := hpassed (Nat.zero_le _)
    exact ⟨hok, hcount, hpc⟩
  · rw [nextCount_of_some hn] at hcount hpassed
    obtain ⟨hok, hpc⟩ := hpassed hmax
    exact ⟨hok, hcount, hpc⟩
  · rw [request_of_exceeded hrun hbatch hfetch hdec hn hmax]
    exact ⟨rfl, rfl, guardCount_setGuard_same s id _, rfl⟩
  · rw [guardCount, hguard]
    exact guardCount_setGuard_ne s hne _

/-! ### Many encounters -/

/-- The guard stage at one marker, as a function of the state alone. -/
def encounter (id : LabelId) (s : State) : State := (loopGuard (.label id.toNat) s).state

theorem encounter_eq {s : State} (hbatch : s.cfg.batch = true) (id : LabelId) :
    encounter id s = setGuard s id (nextCount s id) := by
  rw [encounter, loopGuard_label hbatch]

theorem iterate_encounter_cfg (id : LabelId) (k : Nat) (s : State) : ((encounter id)^[k] s).cfg = s.cfg := by
  induction k with
  | zero => rfl
  | succ k ih => rw [Function.iterate_succ_apply', encounter, loopGuard_cfg, ih]

/-- After `k` encounters from an absent counter, the next one leaves `k` in it. -/
theorem nextCount_iterate_encounter {s : State} {id : LabelId} (hbatch : s.cfg.batch = true)
    (hnone : guardCount s id = none) (k : Nat) : nextCount ((encounter id)^[k] s) id = k := by
  induction k with
  | zero => exact nextCount_of_none hnone
  | succ k ih =>
    have hcfg := iterate_encounter_cfg id k s
    rw [Function.iterate_succ_apply', encounter_eq (hcfg ▸ hbatch), ih]
    exact nextCount_of_some (guardCount_setGuard_same _ id k)

/-- Settles O31: the next encounter leaves `k`, which is compared with `MAX_JUMPS`. -/
theorem guardPassesMaxJumpsPlusOneEncounters : Obligations.GuardPassesMaxJumpsPlusOneEncounters := by
  unfold Obligations.GuardPassesMaxJumpsPlusOneEncounters
  intro s id k hbatch hnone before
  have hcfg : before.cfg = s.cfg := iterate_encounter_cfg id k s
  have hcount : nextCount before id = k := nextCount_iterate_encounter hbatch hnone k
  rw [loopGuard_label (hcfg ▸ hbatch), hcount, hcfg]
  refine ⟨guardCount_setGuard_same before id k, ?_⟩
  by_cases hk : k ≤ s.cfg.maxJumps
  · simp [hk, Nat.not_lt.mpr hk]
  · simp [hk, Nat.lt_of_not_le hk]

end Sys2Proof.Machine
end

section
/-! How a step ends (R201 to R207, R224, R225): the exact errors, what each leaves, and the exact move of the pc. -/

namespace Sys2Proof.Machine

theorem step_eq_fault_iff (s : State) (f : Fault) : step s = .fault f ↔ (request s).status = .err f := by
  unfold step replyOutcome
  cases (request s).status <;> simp

theorem step_eq_refused_iff (s : State) (why : Refusal) :
    step s = .refused why ↔ (request s).status = .refused why := by
  unfold step replyOutcome
  cases (request s).status <;> simp

/-- Settles O27: the request's equation on a Finished state. -/
theorem finishedStepChangesNothing : Obligations.FinishedStepChangesNothing := by
  unfold Obligations.FinishedStepChangesNothing
  intro s hfin
  have hreq := request_of_finished hfin
  exact ⟨hreq, (step_eq_next_iff s s).mpr hreq⟩

/-- Settles O29: the request's equation on a reserved word. -/
theorem reservedWordIsMalformed : Obligations.ReservedWordIsMalformed := by
  unfold Obligations.ReservedWordIsMalformed
  intro s w hrun hfetch hdec
  have hreq : request s = ⟨s, .err (.malformedInstruction s.pc w)⟩ := request_of_reserved hrun hfetch hdec
  exact ⟨hreq, (step_eq_fault_iff s _).mpr (by rw [hreq]), by rw [hreq]; rfl⟩

theorem terminationCheck_eq_ite (s : State) : terminationCheck s =
    if programLength s ≤ s.pc.toNat ∨ s.pc = 0xFFFF#16 then { s with finished := true } else s := by
  simp only [terminationCheck, atEnd_iff, finish]

/-- The guard stage where it lets the step go on: it leaves the state as it is, but for a marker in batch mode. -/
theorem loopGuard_of_passed {i : Instr} {s g : State}
    (h : (s.cfg.batch = false ∨ ∀ id, i ≠ .label id) ∧ g = s ∨
      ∃ id : LabelId, s.cfg.batch = true ∧ i = .label id.toNat ∧
        (guardCount s id = none ∧ g = setGuard s id 0 ∨
          ∃ n, guardCount s id = some n ∧ n + 1 ≤ s.cfg.maxJumps ∧ g = setGuard s id (n + 1))) :
    loopGuard i s = ⟨g, .ok⟩ := by
  rcases h with ⟨hbatch | hi, rfl⟩ | ⟨id, hbatch, rfl, ⟨hnone, rfl⟩ | ⟨n, hn, hmax, rfl⟩⟩
  · exact loopGuard_of_interactive i hbatch
  · rcases loopGuard_cases i g with hg | ⟨id, hlabel, -⟩
    · exact hg
    · exact absurd hlabel (hi _)
  · rw [loopGuard_label hbatch, nextCount_of_none hnone, if_pos (Nat.zero_le _)]
  · rw [loopGuard_label hbatch, nextCount_of_some hn, if_pos hmax]

/-- Settles O26: behind a guard that passes, a step is `runInstr`, whose reply is read as an outcome. -/
theorem stepRunsTheDecodedInstruction : Obligations.StepRunsTheDecodedInstruction := by
  unfold Obligations.StepRunsTheDecodedInstruction
  intro s w i hrun hfetch hdec g hg
  rw [step, request_of_instr hrun hfetch hdec, runGuarded, loopGuard_of_passed hg]
  simp only [runInstr]
  cases exec i g with
  | next t => simp only [replyOutcome, terminationCheck_eq_ite]
  | fault f => rfl
  | refused why => rfl

/-- The errors of a step request: a reserved word, or a marker whose counter would pass `MAX_JUMPS`. -/
theorem request_err_iff (s : State) (f : Fault) : (request s).status = .err f ↔
    s.finished = false ∧ ∃ w, fetch s = some w ∧
      (decode w = .reserved ∧ f = .malformedInstruction s.pc w ∨
        ∃ (id : LabelId) (n : Nat), s.cfg.batch = true ∧ decode w = .instr (.label id.toNat) ∧
          guardCount s id = some n ∧ s.cfg.maxJumps < n + 1 ∧ f = .runtimeError id) := by
  constructor
  · intro h
    rcases request_endings s with ⟨-, hreq⟩ | ⟨-, -, hreq⟩ | ⟨hrun, w, hw, hres, hreq⟩ |
      ⟨-, w, i, v, -, -, -, -, hreq⟩ | ⟨hrun, w, id, n, hw, hi, hbatch, hn, hmax, hreq⟩ <;> rw [hreq] at h <;> cases h
    · exact ⟨hrun, w, hw, .inl ⟨hres, rfl⟩⟩
    · exact ⟨hrun, w, hw, .inr ⟨id, n, hbatch, hi, hn, hmax, rfl⟩⟩
  · rintro ⟨hrun, w, hw, ⟨hres, rfl⟩ | ⟨id, n, hbatch, hi, hn, hmax, rfl⟩⟩
    · rw [request_of_reserved hrun hw hres, abandon]
    · rw [request_of_exceeded hrun hbatch hw hi hn hmax]

theorem request_status_ne_refused (s : State) (why : Refusal) : (request s).status ≠ .refused why := by
  intro h
  rcases request_endings s with ⟨-, hreq⟩ | ⟨-, -, hreq⟩ | ⟨-, w, -, -, hreq⟩ |
    ⟨-, w, i, v, -, -, -, -, hreq⟩ | ⟨-, w, id, n, -, -, -, -, -, hreq⟩ <;> rw [hreq] at h <;> cases h

/-- Settles O36: a step's fault is its request's error, and no request ends in a refusal. -/
theorem stepFaultsExactlyThere : Obligations.StepFaultsExactlyThere := by
  unfold Obligations.StepFaultsExactlyThere
  exact ⟨fun s f => (step_eq_fault_iff s f).trans (request_err_iff s f),
    fun s why h => request_status_ne_refused s why ((step_eq_refused_iff s why).mp h)⟩

/-- Settles O35: a reserved word is still there, and a counter past `MAX_JUMPS` is past it again. -/
theorem errorLeavesTheStateAndRepeats : Obligations.ErrorLeavesTheStateAndRepeats := by
  unfold Obligations.ErrorLeavesTheStateAndRepeats
  intro s f h
  refine ⟨request_err_running h, ?_⟩
  obtain ⟨hrun, w, hw, ⟨hres, rfl⟩ | ⟨id, n, hbatch, hi, hn, hmax, rfl⟩⟩ := (request_err_iff s f).mp h
  · have hreq : request s = ⟨s, .err (.malformedInstruction s.pc w)⟩ := request_of_reserved hrun hw hres
    rw [hreq]
    refine ⟨fun pc word heq => ?_, nofun, by rw [hreq]⟩
    cases heq
    exact ⟨rfl, rfl, hw⟩
  · rw [request_of_exceeded hrun hbatch hw hi hn hmax]
    refine ⟨nofun, fun id' heq => ?_, ?_⟩
    · cases heq
      exact ⟨n, hn, rfl⟩
    · have hcount : guardCount (setGuard s id (n + 1)) id = some (n + 1) := guardCount_setGuard_same s id _
      rw [request_of_exceeded (s := setGuard s id (n + 1)) hrun hbatch hw hi hcount (Nat.lt_succ_of_lt hmax)]

/-- Settles O37: a completed instruction's pc is `nextPc` below `N`; every other ending keeps the pc. -/
theorem pcAdvancesByOneWithoutWrapping : Obligations.PcAdvancesByOneWithoutWrapping := by
  unfold Obligations.PcAdvancesByOneWithoutWrapping
  refine ⟨fun s t hrun hN hin hstep => ?_, fun s h => ?_⟩
  · obtain ⟨hpc, -⟩ := step_next_pc hrun hN hin hstep
    exact ⟨hpc, by omega⟩
  · rcases request_ran_or_kept s with ⟨hrun, w, i, v, hw, -, -, hreq⟩ | hkept
    · have hin : ¬programLength s ≤ s.pc.toNat := fun hout => by
        rw [(fetch_eq_none_iff s).mpr hout] at hw
        cases hw
      simp [hrun, hin, hreq] at h
    · rw [hkept]

end Sys2Proof.Machine
end

section
/-! The invariant (`Sound`), stage by stage: what the guard stage, an instruction and the end of a step keep of it. -/

namespace Sys2Proof.Machine

theorem Sound.programLength_le {s : State} (h : Sound s) : programLength s ≤ 0xFFFF :=
  of_decide_eq_true (Bool.and_eq_true_iff.mp h.cfg).1

/-- A counter set within `MAX_JUMPS`, in batch mode. -/
theorem setGuard_sound {s : State} (h : Sound s) (hbatch : s.cfg.batch = true) {id : LabelId} {n : Nat}
    (hn : n ≤ s.cfg.maxJumps) : Sound (setGuard s id n) where
  cfg := h.cfg
  stack := h.stack
  heap := h.heap
  guardForm := setGuard_wf h.guardForm id n
  guardBound := fun other m hm => by
    by_cases heq : other = id
    · subst heq
      rw [guardCount_setGuard_same] at hm
      cases hm
      exact hn
    · rw [guardCount_setGuard_ne s heq] at hm
      exact h.guardBound other m hm
  guardAbsent := fun hoff => absurd hbatch (by simpa using hoff)
  sign := h.sign
  ended := h.ended

/-- The guard stage keeps the invariant wherever it lets the step go on. -/
theorem loopGuard_sound {s : State} (h : Sound s) {i : Instr} (hpass : (loopGuard i s).status = .ok) :
    Sound (loopGuard i s).state := by
  rcases loopGuard_cases i s with hg | ⟨id, -, hbatch, ⟨-, hg⟩ | ⟨n, -, hmax, hg⟩ | ⟨n, -, -, hg⟩⟩ <;>
    rw [hg] at hpass ⊢
  · exact h
  · exact setGuard_sound h hbatch (Nat.zero_le _)
  · exact setGuard_sound h hbatch hmax
  · cases hpass

/-- S is N xor V after every instruction: CPC and SBC set all three together, the others none of them (R134). -/
theorem exec_sign {i : Instr} {s t : State} (h : exec i s = .next t) (hsign : s.flags.s = (s.flags.n ^^ s.flags.v)) :
    t.flags.s = (t.flags.n ^^ t.flags.v) := by
  rcases exec_cases h with ⟨_, _, rfl⟩ | ⟨_, _, _, rfl⟩ | ⟨_, _, _, rfl⟩ | ⟨_, _, _, _, rfl⟩
  · simpa using hsign
  · rw [commit_cpc_flags, subFlags_s]
  · rw [commit_sbc_flags, subFlags_s]
  · simpa using hsign

theorem exec_sound {i : Instr} {s t : State} (h : Sound s) (hrun : s.finished = false) (hexec : exec i s = .next t) :
    Sound t := by
  have hsign := exec_sign hexec h.sign
  rw [exec_frame hexec]
  exact
    { cfg := h.cfg
      stack := h.stack
      heap := h.heap
      guardForm := h.guardForm
      guardBound := h.guardBound
      guardAbsent := h.guardAbsent
      sign := hsign
      ended := fun hfin => absurd hfin (by simp [hrun]) }

theorem finish_sound {s : State} (h : Sound s) (hout : programLength s ≤ s.pc.toNat) : Sound (finish s) where
  cfg := h.cfg
  stack := h.stack
  heap := h.heap
  guardForm := h.guardForm
  guardBound := h.guardBound
  guardAbsent := h.guardAbsent
  sign := h.sign
  ended := fun _ => hout

/-- The termination check finishes at or beyond `N` only: with `N <= 0xFFFF` the sentinel is beyond it. -/
theorem terminationCheck_sound {s : State} (h : Sound s) : Sound (terminationCheck s) := by
  unfold terminationCheck
  split
  next hend =>
    exact finish_sound h (((atEnd_iff s).mp hend).elim id (sentinel_outOfBounds h.programLength_le))
  next => exact h

/-- Settles O41: the endings of a completed step are the state itself, `finish` out of bounds, or the stages one after
the other, and each keeps the invariant. -/
theorem everyStepKeepsSoundness : Obligations.EveryStepKeepsSoundness := by
  unfold Obligations.EveryStepKeepsSoundness
  intro s t h hstep
  rw [step_eq_next_iff] at hstep
  rcases request_endings s with ⟨-, hreq⟩ | ⟨-, hout, hreq⟩ | ⟨-, w, -, -, hreq⟩ |
    ⟨hrun, w, i, v, -, -, hpass, hexec, hreq⟩ | ⟨-, w, id, n, -, -, -, -, -, hreq⟩ <;>
    rw [hreq] at hstep <;> cases hstep
  · exact h
  · exact finish_sound h hout
  · exact terminationCheck_sound (exec_sound (loopGuard_sound h hpass) ((loopGuard_finished i s).trans hrun) hexec)

end Sys2Proof.Machine
end

section
/-! Runs (R211, R253): what a valid image rules out, and how long a run is. -/

namespace Sys2Proof.Machine

/-! ### Valid images -/

theorem decode_ne_reserved_of_valid {s : State} {w : Word} (hvalid : validImage s.cfg.prog = true)
    (hfetch : fetch s = some w) : decode w ≠ .reserved := by
  intro hres
  have hword := List.all_eq_true.mp hvalid w (List.mem_of_getElem? hfetch)
  simp [hres, Decoded.instr?] at hword

/-- On a valid image the only error of a step is a Runtime-Error at a marker, in batch mode. -/
theorem step_fault_of_valid {s : State} {f : Fault} (hvalid : validImage s.cfg.prog = true) (h : step s = .fault f) :
    s.cfg.batch = true ∧ ∃ (id : LabelId) (w : Word), f = .runtimeError id ∧ fetch s = some w ∧
      decode w = .instr (.label id.toNat) := by
  obtain ⟨-, w, hw, ⟨hres, -⟩ | ⟨id, n, hbatch, hi, -, -, hf⟩⟩ :=
    (request_err_iff s f).mp ((step_eq_fault_iff s f).mp h)
  · exact absurd hres (decode_ne_reserved_of_valid hvalid hw)
  · exact ⟨hbatch, id, w, hf, hw, hi⟩

theorem step_next_or_fault (s : State) : (∃ t, step s = .next t) ∨ ∃ f, step s = .fault f := by
  cases hstep : step s with
  | next t => exact .inl ⟨t, rfl⟩
  | fault f => exact .inr ⟨f, rfl⟩
  | refused why => exact absurd ((step_eq_refused_iff s why).mp hstep) (request_status_ne_refused s why)

theorem step_next_of_valid_interactive {s : State} (hvalid : validImage s.cfg.prog = true)
    (hmode : s.cfg.batch = false) : ∃ t, step s = .next t :=
  (step_next_or_fault s).resolve_right fun ⟨f, hf⟩ => by
    obtain ⟨hbatch, -⟩ := step_fault_of_valid hvalid hf
    rw [hmode] at hbatch
    cases hbatch

/-- Settles O42: on a valid image a fault is a Runtime-Error, and only batch mode has one. -/
theorem validImageNeverMalformed : Obligations.ValidImageNeverMalformed := by
  unfold Obligations.ValidImageNeverMalformed
  refine fun s hvalid => ⟨fun pc w hf => ?_, step_next_of_valid_interactive hvalid⟩
  obtain ⟨-, id, _, heq, -⟩ := step_fault_of_valid hvalid hf
  cases heq

/-! ### Runs of many steps -/

theorem core_run_succ_of_next (M : Host.Core) {s u : M.State} (h : M.step s = .next u) (n : Nat) :
    M.run (n + 1) s = M.run n u := by
  rw [Host.Core.run, h]

theorem core_run_succ_of_fault (M : Host.Core) {s : M.State} {f : M.Fault} (h : M.step s = .fault f) (n : Nat) :
    M.run (n + 1) s = .fault f := by
  rw [Host.Core.run, h]

theorem run_succ_of_next {s u : State} (h : step s = .next u) (n : Nat) :
    Host.Core.run Sys2Proof.core (n + 1) s = Host.Core.run Sys2Proof.core n u :=
  core_run_succ_of_next Sys2Proof.core h n

theorem run_succ_of_fault {s : State} {f : Fault} (h : step s = .fault f) (n : Nat) :
    Host.Core.run Sys2Proof.core (n + 1) s = .fault f :=
  core_run_succ_of_fault Sys2Proof.core h n

theorem run_of_finished {s : State} (h : s.finished = true) (n : Nat) : Host.Core.run Sys2Proof.core n s = .next s := by
  induction n with
  | zero => rfl
  | succ n ih => rw [run_succ_of_next ((step_eq_next_iff s s).mpr (request_of_finished h)), ih]

theorem step_cfg {s t : State} (h : step s = .next t) : t.cfg = s.cfg := by
  have hcfg := request_cfg s
  rwa [(step_eq_next_iff s t).mp h] at hcfg

/-- R202: out of bounds a step only finishes the run. -/
theorem step_of_outOfBounds {s : State} (hrun : s.finished = false) (hout : programLength s ≤ s.pc.toNat) :
    step s = .next (finish s) :=
  (step_eq_next_iff s _).mpr (request_of_fetch_none hrun ((fetch_eq_none_iff s).mpr hout))

/-- With `N <= 0xFFFF` an instruction's step is the run's last one exactly at index `N - 1`. -/
theorem step_next_finished_iff_last {s t : State} (hrun : s.finished = false) (hN : programLength s ≤ 0xFFFF)
    (hin : s.pc.toNat < programLength s) (h : step s = .next t) :
    t.finished = true ↔ s.pc.toNat + 1 = programLength s :=
  (terminationCheckAfterCommit.2.2 s t hrun hN hin h).2

/-- A step that completes and leaves the core Running went from an index below `N` to the next one. -/
theorem step_next_of_running {s u : State} (hrun : s.finished = false) (hN : programLength s ≤ 0xFFFF)
    (h : step s = .next u) (hu : u.finished = false) : u.pc.toNat = s.pc.toNat + 1 := by
  by_cases hin : s.pc.toNat < programLength s
  · exact (step_next_pc hrun hN hin h).1
  · rw [step_of_outOfBounds hrun (Nat.le_of_not_lt hin)] at h
    cases h
    cases hu

/-! ### How long a run is -/

/-- After `n` completed steps the pc is `n` indices on, and the run is Finished exactly where that is `N`. -/
theorem run_next_pc_and_finished (n : Nat) : ∀ {s t : State}, s.finished = false → programLength s ≤ 0xFFFF →
    s.pc.toNat < programLength s → n ≤ programLength s - s.pc.toNat → Host.Core.run Sys2Proof.core n s = .next t →
    t.pc.toNat = s.pc.toNat + n ∧ (t.finished = true ↔ n = programLength s - s.pc.toNat) := by
  induction n with
  | zero =>
    intro s t hrun hN hin hn h
    cases h
    exact ⟨rfl, iff_of_false (by simp [hrun]) (by omega)⟩
  | succ n ih =>
    intro s t hrun hN hin hn h
    rcases step_next_or_fault s with ⟨u, hu⟩ | ⟨f, hf⟩
    · rw [run_succ_of_next hu] at h
      obtain ⟨hpc, hlen⟩ := step_next_pc hrun hN hin hu
      have hlast := step_next_finished_iff_last hrun hN hin hu
      by_cases hend : s.pc.toNat + 1 = programLength s
      · obtain rfl : n = 0 := by omega
        cases h
        exact ⟨hpc, iff_of_true (hlast.mpr hend) (by omega)⟩
      · have hrun_u : u.finished = false := by simpa [hend] using hlast
        obtain ⟨hpc_t, hfin_t⟩ := ih hrun_u (by omega) (by omega) (by omega) h
        exact ⟨by omega, by rw [hfin_t]; omega⟩
    · rw [run_succ_of_fault hf] at h
      cases h

/-- On a valid image in interactive mode a run of any number of steps meets no error. -/
theorem run_next_of_valid_interactive (n : Nat) : ∀ {s : State}, validImage s.cfg.prog = true → s.cfg.batch = false →
    ∃ t, Host.Core.run Sys2Proof.core n s = .next t := by
  induction n with
  | zero => exact fun {s} _ _ => ⟨s, rfl⟩
  | succ n ih =>
    intro s hvalid hmode
    obtain ⟨u, hu⟩ := step_next_of_valid_interactive hvalid hmode
    rw [run_succ_of_next hu]
    have hcfg := step_cfg hu
    exact ih (hcfg ▸ hvalid) (hcfg ▸ hmode)

theorem completesIn_one {s : State} (hrun : s.finished = false) (hout : programLength s ≤ s.pc.toNat) :
    CompletesIn 1 s := by
  refine ⟨⟨finish s, run_succ_of_next (step_of_outOfBounds hrun hout) 0, rfl⟩, fun k hk => ?_⟩
  obtain rfl : k = 0 := by omega
  exact ⟨s, rfl, hrun⟩

theorem completesIn_remaining {s : State} (hrun : s.finished = false) (hN : programLength s ≤ 0xFFFF)
    (hin : s.pc.toNat < programLength s) (hvalid : validImage s.cfg.prog = true) (hmode : s.cfg.batch = false) :
    CompletesIn (programLength s - s.pc.toNat) s := by
  refine ⟨?_, fun k hk => ?_⟩
  · obtain ⟨t, ht⟩ := run_next_of_valid_interactive (programLength s - s.pc.toNat) hvalid hmode
    exact ⟨t, ht, (run_next_pc_and_finished _ hrun hN hin le_rfl ht).2.mpr rfl⟩
  · obtain ⟨t, ht⟩ := run_next_of_valid_interactive k hvalid hmode
    obtain ⟨-, hfin⟩ := run_next_pc_and_finished k hrun hN hin hk.le ht
    exact ⟨t, ht, by simpa [hk.ne] using hfin⟩

/-- Settles O43: each completed step moves the pc by one until `N`, out of bounds one step finishes, and a valid image
in interactive mode has no error to come first. -/
theorem runEndsAfterTheRemainingProgram : Obligations.RunEndsAfterTheRemainingProgram := by
  unfold Obligations.RunEndsAfterTheRemainingProgram
  exact ⟨fun s t n => run_next_pc_and_finished n, fun s => completesIn_one, fun s => completesIn_remaining⟩

/-! ### Where a run aborts -/

theorem mem_drop_of_fetch {s : State} {w : Word} (h : fetch s = some w) : w ∈ s.cfg.prog.drop s.pc.toNat := by
  refine List.mem_of_getElem? (i := 0) ?_
  rw [List.getElem?_drop]
  exact h

/-- The error of a run on a valid image: the pc only moves forward, so the marker it comes from stands at or after
it. -/
theorem run_fault_of_valid {f : Fault} (n : Nat) : ∀ {s : State}, s.finished = false → programLength s ≤ 0xFFFF →
    validImage s.cfg.prog = true → Host.Core.run Sys2Proof.core n s = .fault f →
    s.cfg.batch = true ∧ ∃ (id : LabelId) (w : Word), f = .runtimeError id ∧ w ∈ s.cfg.prog.drop s.pc.toNat ∧
      decode w = .instr (.label id.toNat) := by
  induction n with
  | zero =>
    intro s _ _ _ h
    cases h
  | succ n ih =>
    intro s hrun hN hvalid h
    rcases step_next_or_fault s with ⟨u, hu⟩ | ⟨f', hf⟩
    · rw [run_succ_of_next hu] at h
      cases hfin : u.finished with
      | true =>
        rw [run_of_finished hfin] at h
        cases h
      | false =>
        have hcfg := step_cfg hu
        have hpc := step_next_of_running hrun hN hu hfin
        obtain ⟨hbatch, id, w, hf, hw, hi⟩ :=
          ih hfin ((programLength_eq_of_cfg hcfg).trans_le hN) (hcfg ▸ hvalid) h
        rw [hcfg] at hbatch hw
        exact ⟨hbatch, id, w, hf, List.drop_subset_drop_left _ (by omega) hw, hi⟩
    · rw [run_succ_of_fault hf] at h
      cases h
      obtain ⟨hbatch, id, w, heq, hw, hi⟩ := step_fault_of_valid hvalid hf
      exact ⟨hbatch, id, w, heq, mem_drop_of_fetch hw, hi⟩

/-- Settles O44: an aborted run is a run of some number of steps. -/
theorem batchRunAbortsOnlyAtALabel : Obligations.BatchRunAbortsOnlyAtALabel := by
  unfold Obligations.BatchRunAbortsOnlyAtALabel
  exact fun s f hrun hN hvalid ⟨n, hn⟩ => run_fault_of_valid n hrun hN hvalid hn

end Sys2Proof.Machine
end
